-- ==== Sys2Proof/Config.lean ====
section
/-! DEFINITION. The parameters of the block: those the source fixes (00_scope.md R5), those the
spec fixes by decision (R6, 92_eei_decisions.md D2, D4, D5, D6), and the two it leaves open. -/

namespace Sys2Proof.Config

/-- VALUE_W (R5): width in bits of the unsigned value. -/
abbrev valueWidth : Nat := 64
/-- BYTE_W (R5): width of one encoded byte. -/
abbrev byteWidth : Nat := 8
/-- CHUNK_W (R5): payload bits per byte. -/
abbrev chunkWidth : Nat := 7
/-- CONT_BIT (R5): bit index of the continuation flag inside a byte. -/
abbrev contBit : Nat := 7
/-- CONT_MASK (R5). -/
abbrev contMask : BitVec 8 := 0x80#8
/-- CHUNK_MASK (R5). -/
abbrev chunkMask : BitVec 8 := 0x7F#8
/-- MAX_LEN (R5): largest length in bytes of a valid encoding. -/
abbrev maxLen : Nat := 10
/-- MIN_LEN (R5): smallest length of a valid encoding. -/
abbrev minLen : Nat := 1
/-- ENC_LANES (R6, D5): byte lanes of `enc_data`. -/
abbrev encLanes : Nat := 10
/-- DEC_LANES (R6, D4): byte lanes of `dec_data`. -/
abbrev decLanes : Nat := 10
/-- ENC_LEN_W (R6, D5): width of `enc_len`. -/
abbrev encLenWidth : Nat := 4
/-- DEC_LEN_W (R6, D4): width of `dec_len`. -/
abbrev decLenWidth : Nat := 4
/-- STATUS_W (R6, D6): width of `dec_status`. -/
abbrev statusWidth : Nat := 2
/-- The width of both data buses: ten lanes of eight bits (R28, R29). -/
abbrev busWidth : Nat := 80

/-- LAT_ENC (R6, R181): OPEN, no rule and no definition depends on it (log entry 8). -/
opaque latEnc : Nat
/-- LAT_DEC (R6, R181): OPEN, no rule and no definition depends on it (log entry 8). -/
opaque latDec : Nat

end Sys2Proof.Config
end

