-- ==== Sys2Proof/Word.lean ====
section
/-! DEFINITION. The word types of the block (00_scope.md R5, R8; 10_state.md R28, R29). Each width is
the parameter of Config.lean with the same meaning, written as a number. -/

namespace Sys2Proof

/-- The unsigned value that ENCODE reads and DECODE produces (R41 (a)). -/
abbrev Val := BitVec 64
/-- One encoded byte (R60). -/
abbrev Byte := BitVec 8
/-- The payload of one byte (R60). -/
abbrev Chunk := BitVec 7
/-- A data bus of ten byte lanes: `enc_data` or `dec_data` (R44). -/
abbrev Bus := BitVec 80
/-- `enc_len` or `dec_len`. -/
abbrev Len := BitVec 4
/-- `dec_status` (R70). -/
abbrev Status := BitVec 2

end Sys2Proof
end

