-- ==== Sys2Proof/Syntax.lean ====
section
/-! DEFINITION. The rows of spec/opcode_table.json as syntax, and the raw words they are read from. -/

namespace Sys2Proof

/-- One constructor per row of spec/opcode_table.json (30_encoding.md R71). -/
inductive Instr where
  /-- ENCODE (R90): the transaction of unit ENC on `enc_value`. -/
  | encode (value : Val)
  /-- DECODE (R110): the transaction of unit DEC on `dec_len` and `dec_data`. -/
  | decode (len : Len) (data : Bus)
  /-- VB.CONT (R61): a continuation byte, `1ccccccc`. -/
  | vbCont (chunk : Chunk)
  /-- VB.LAST (R61): a terminal byte, `0ccccccc`. -/
  | vbLast (chunk : Chunk)
deriving DecidableEq, Repr

/-- The raw bits that a request is: the operation is selected by the port driven (R72), so the
port stands beside the bits and is no part of them. -/
inductive RequestWord where
  /-- ENC_REQ (R69): `enc_value`. -/
  | encReq (bits : BitVec 64)
  /-- DEC_REQ (R68): `dec_len` in bits 83 to 80 and `dec_data` in bits 79 to 0, as
  opcode_table.json writes the two signals (log entry 1). -/
  | decReq (bits : BitVec 84)
  /-- VARINT_BYTE (R60): one byte on its own (log entry 2). -/
  | varintByte (bits : BitVec 8)
deriving DecidableEq, Repr

end Sys2Proof
end

