-- ==== Sys2Proof/WellFormed.lean ====
section
/-! DEFINITION. What is checked before decoding. An instruction of this block has no ill-formed
operand: every pattern of each port is a legal request (30_encoding.md R69, R72, R74, R75) and no
byte value is reserved (R61). What can be ill-formed is a list of bytes offered as a request. -/

namespace Sys2Proof

/-- Every operand of every instruction is legal: R69 and R74 for ENCODE ("All 2^64 patterns are
legal"), R72 and R75 for DECODE (lengths 11 to 15 "are legal presentations"), R61 for the two byte
classes ("No byte value is reserved or illegal by itself"). -/
def Instr.wf : Instr → Bool
  | .encode _ => true
  | .decode _ _ => true
  | .vbCont _ => true
  | .vbLast _ => true

/-- Why a list of bytes is no request word (log entry 1). -/
inductive FrameDefect where
  /-- No port takes a request of that many bytes. -/
  | noPortOfThisWidth
  /-- One of the four padding bits above the 84 bits of a DEC request is set. -/
  | padBitsSet
deriving DecidableEq, Repr

/-- The first defect of a list of bytes offered as a request word: 8 bytes for ENC_REQ, 11 for
DEC_REQ (84 bits and four padding bits), 1 for VARINT_BYTE (log entry 1). -/
def frameDefect (bytes : List Byte) : Option FrameDefect :=
  if bytes.length = 1 ∨ bytes.length = 8 then none
  else if bytes.length = 11 then
    if bytes.getD 10 0 &&& 0xF0#8 = 0#8 then none else some .padBitsSet
  else some .noPortOfThisWidth

end Sys2Proof
end

