-- ==== Sys2Proof/Decode.lean ====
section
/-! DEFINITION. The fields of a varint byte (30_encoding.md R60, R61), the decoder of request words
(R68, R69, R72), the encoder written from the same formats, and both over raw bytes (log entry 1). -/

namespace Sys2Proof

/-! ### The varint byte -/

/-- A continuation byte: `b & 0x80 == 0x80` (R61). -/
def isCont (b : Byte) : Bool := b &&& Config.contMask == Config.contMask

/-- A terminal byte: `b & 0x80 == 0x00` (R61). -/
def isLast (b : Byte) : Bool := b &&& Config.contMask == 0#8

/-- The chunk of a byte: `b & 0x7F`, the seven bits `b[6:0]` (R60, R112). -/
def chunkOf (b : Byte) : Chunk := (b &&& Config.chunkMask).setWidth 7

/-- The byte of class VB.CONT with chunk `c`: `chunk | 0x80` (R91). -/
def contByte (c : Chunk) : Byte := c.setWidth 8 ||| Config.contMask

/-- The byte of class VB.LAST with chunk `c` (R91). -/
def lastByte (c : Chunk) : Byte := c.setWidth 8

/-- The class of a byte, told by bit 7 alone (R61). -/
def decodeByte (b : Byte) : Instr :=
  if isCont b then .vbCont (chunkOf b) else .vbLast (chunkOf b)

/-! ### Request words -/

/-- The instruction a request word is. No pattern is rejected: every pattern on a port is that
port's operation (R72). -/
def decodeWord : RequestWord → Instr
  | .encReq bits => .encode bits
  | .decReq bits => .decode (bits.extractLsb' 80 4) (bits.extractLsb' 0 80)
  | .varintByte bits => decodeByte bits

/-- The request word of an instruction, from the formats of R68, R69 and R60. -/
def encodeWord : Instr → RequestWord
  | .encode v => .encReq v
  | .decode len data => .decReq (len ++ data)
  | .vbCont c => .varintByte (contByte c)
  | .vbLast c => .varintByte (lastByte c)

/-! ### Raw bytes -/

/-- The low `k` bytes of a number, least significant first. -/
def bytesOfNat : Nat → Nat → List Byte
  | 0, _ => []
  | k + 1, w => BitVec.ofNat 8 w :: bytesOfNat k (w / 256)

/-- The number whose bytes, least significant first, are given. -/
def natOfBytes : List Byte → Nat
  | [] => 0
  | b :: bs => b.toNat + 256 * natOfBytes bs

/-- The request word that a list of bytes is, or the defect it has. -/
def requestOfBytes (bytes : List Byte) : Except FrameDefect RequestWord :=
  match frameDefect bytes with
  | some d => .error d
  | none =>
    if bytes.length = 8 then .ok (.encReq (BitVec.ofNat 64 (natOfBytes bytes)))
    else if bytes.length = 11 then .ok (.decReq (BitVec.ofNat 84 (natOfBytes bytes)))
    else .ok (.varintByte (BitVec.ofNat 8 (natOfBytes bytes)))

/-- The bytes of a request word, least significant first. -/
def bytesOfRequest : RequestWord → List Byte
  | .encReq bits => bytesOfNat 8 bits.toNat
  | .decReq bits => bytesOfNat 11 bits.toNat
  | .varintByte bits => bytesOfNat 1 bits.toNat

/-- The decoder of raw bytes: total, and it rejects by the name of the defect. -/
def decodeBytes (bytes : List Byte) : Except FrameDefect Instr :=
  match requestOfBytes bytes with
  | .error d => .error d
  | .ok w => .ok (decodeWord w)

/-- The encoder: the bytes of an instruction's request word. -/
def encodeBytes (i : Instr) : List Byte := bytesOfRequest (encodeWord i)

/-- The number of whole bytes that hold `nbits` bits. -/
def wholeBytes (nbits : Nat) : Nat := (nbits + 7) / 8

/-- The instruction the decoder reads from a word of spec/opcode_table.json, bit 0 the least
significant bit of the first byte. -/
def decodeTableWord (nbits w : Nat) : Option Instr :=
  match decodeBytes (bytesOfNat (wholeBytes nbits) w) with
  | .ok i => some i
  | .error _ => none

end Sys2Proof
end

