-- ==== Sys2Proof/Machine/State.lean ====
section
/-! DEFINITION. The state: the port signals of 10_state.md R28 and R29, which are all that can be
observed of the hardware (it stores nothing, R21 to R25, R31), and the requester of R20 (c): what it
will still present and what responses it has taken. Plain data throughout. -/

namespace Sys2Proof.Machine

/-- The request signals of unit ENC (R28). -/
structure EncIn where
  /-- `enc_in_valid` -/
  inValid : Bool
  /-- `enc_value` -/
  value : Val
deriving DecidableEq, Repr

/-- The response signals of unit ENC (R28). -/
structure EncOut where
  /-- `enc_out_valid` -/
  outValid : Bool
  /-- `enc_len` -/
  len : Len
  /-- `enc_data` -/
  data : Bus
deriving DecidableEq, Repr

/-- The request signals of unit DEC (R29). -/
structure DecIn where
  /-- `dec_in_valid` -/
  inValid : Bool
  /-- `dec_len` -/
  len : Len
  /-- `dec_data` -/
  data : Bus
deriving DecidableEq, Repr

/-- The response signals of unit DEC (R29). -/
structure DecOut where
  /-- `dec_out_valid` -/
  outValid : Bool
  /-- `dec_status` -/
  status : Status
  /-- `dec_value` -/
  value : Val
deriving DecidableEq, Repr

/-- The idle outputs of ENC (R30). -/
def EncOut.idle : EncOut := { outValid := false, len := 0, data := 0 }
/-- The idle outputs of DEC (R30). -/
def DecOut.idle : DecOut := { outValid := false, status := 0, value := 0 }

/-- The request signals of ENC at reset: no request (log entry 3). -/
def EncIn.quiet : EncIn := { inValid := false, value := 0 }
/-- The request signals of DEC at reset: no request (log entry 3). -/
def DecIn.quiet : DecIn := { inValid := false, len := 0, data := 0 }

/-- What the requester presents at once, held stable until the responses are taken (R176). -/
inductive Presentation where
  /-- All request signals of both ports; either, both or none of the two may be valid (R72, R173). -/
  | ports (enc : EncIn) (dec : DecIn)
  /-- One varint byte, presented to DEC as a sequence of length 1 (log entry 2). -/
  | varintByte (b : Byte)
deriving DecidableEq, Repr

/-- The whole state. -/
structure State where
  /-- `enc_in_valid`, `enc_value` -/
  encIn : EncIn
  /-- `enc_out_valid`, `enc_len`, `enc_data` -/
  encOut : EncOut
  /-- `dec_in_valid`, `dec_len`, `dec_data` -/
  decIn : DecIn
  /-- `dec_out_valid`, `dec_status`, `dec_value` -/
  decOut : DecOut
  /-- What the requester will still present, next first (R77, R183; the model's own, log entry 4). -/
  script : List Presentation
  /-- The ENC responses taken, oldest first (R51 (b), R183; the model's own, log entry 6). -/
  encTaken : List EncOut
  /-- The DEC responses taken, oldest first (R51 (b), R183; the model's own, log entry 6). -/
  decTaken : List DecOut
deriving DecidableEq, Repr

/-- A machine fault. There is none: `InvalidInput` and `Overflow` are values of the response and
"No request makes a unit stuck or makes it hang" (R155; log entry 17, safe). -/
inductive Fault
deriving DecidableEq, Repr

/-- A refusal. The only one is the host's own; no request of this block is refused (R155). -/
inductive Refusal where
  /-- Raised by an arm of `exec` whose instruction has no meaning yet; no arm raises it. Safe. -/
  | notModelled (mnemonic : String)
deriving DecidableEq, Repr

/-- Nothing presented, both units idle (R30, R31, R170); the request signals are 0 and the
requester's lists empty by log entries 3, 4 and 6. -/
def State.reset : State :=
  { encIn := EncIn.quiet, encOut := EncOut.idle, decIn := DecIn.quiet, decOut := DecOut.idle,
    script := [], encTaken := [], decTaken := [] }

end Sys2Proof.Machine
end

