-- ==== Sys2Proof/Machine/Operands.lean ====
section
/-! DEFINITION. The operand forms of the ports: byte lanes of a data bus (20_memory.md R44,
30_encoding.md R67, R68), and the bytes that a DEC request carries. -/

namespace Sys2Proof.Machine

/-- Lane `i` of a bus: bits `[8i+7 : 8i]` (R44). -/
def lane (data : Bus) (i : Nat) : Byte := data.extractLsb' (8 * i) 8

/-- A sequence on a bus: byte `i` in lane `i`, every lane after the last byte 0x00 (R44, R67). -/
def packLanes : List Byte → Bus
  | [] => 0
  | b :: bs => b.setWidth 80 ||| (packLanes bs <<< 8)

/-- The bytes a DEC request carries: those at the indices below `min(dec_len, 10)`; every other
lane is ignored (R41 (b), R68). -/
def carriedBytes (len : Len) (data : Bus) : List Byte :=
  (List.range (min len.toNat Config.decLanes)).map (lane data)

/-- The length of a sequence on the four bits of `enc_len` (R67). -/
def lenField (bs : List Byte) : Len := BitVec.ofNat 4 bs.length

end Sys2Proof.Machine
end

