-- ==== Sys2Proof/Machine/Flags.lean ====
section
/-! DEFINITION. The outcome of a DECODE transaction and its status code, the only condition a
requester can test (10_state.md R23; 30_encoding.md R70; 60_exceptions.md R140). -/

namespace Sys2Proof.Machine

/-- The two error kinds (R140). -/
inductive ErrorKind where
  | invalidInput
  | overflow
deriving DecidableEq, Repr

/-- The outcome of a DECODE transaction: OK with a value, or an error kind with none (R110, R140). -/
inductive Verdict where
  | ok (v : Val)
  | error (k : ErrorKind)
deriving DecidableEq, Repr

/-- `dec_status` for OK (R70). -/
def statusOk : Status := 0

/-- `dec_status` for an error kind (R70). -/
def statusOf : ErrorKind → Status
  | .invalidInput => 1
  | .overflow => 2

end Sys2Proof.Machine
end

