-- ==== Sys2Proof/Machine/Codec.lean ====
section
/-! DEFINITION. The two functions of the block at the transaction level (00_scope.md R7): the loop
of ENCODE (40_encode.md R91) and the loops and checks of DECODE (41_decode.md R112). The locals of
R26 are the arguments and let-bound values here. -/

namespace Sys2Proof.Machine

/-- The loop of R91 from the remaining value `rem`, with `passes` passes left. The test on the
remaining value is made after the shift of the same pass; ten passes are enough (R99). -/
def encodeLoop : (passes : Nat) → (rem : Val) → List Byte
  | 0, _ => []
  | passes + 1, rem =>
    let chunk : Chunk := rem.setWidth 7
    let rem' := rem >>> 7
    if rem' = 0 then [lastByte chunk] else contByte chunk :: encodeLoop passes rem'

/-- ENCODE at the transaction level (R90, R91): the loop body runs at least once (R97) and at most
ten times (R99). -/
def encodeValue (v : Val) : List Byte := encodeLoop Config.maxLen v

/-- The first loop of R112 from index `i`: assemble the chunks, and raise `Overflow` at index 9 when
the chunk is 2 or more (row 3 of R111, R114). -/
def accumulate : (i : Nat) → (acc : Val) → List Byte → Verdict
  | _, acc, [] => .ok acc
  | i, acc, b :: bs =>
    let chunk := chunkOf b
    if i = 9 ∧ 2 ≤ chunk.toNat then .error .overflow
    else accumulate (i + 1) (acc ||| (chunk.setWidth 64 <<< (7 * i))) bs

/-- DECODE of a sequence of length `n` whose bytes at the indices below `min(n, 10)` are `bs`, check
by check as in R112: empty, too long ("no byte is examined"), value overflow, interior terminator,
truncated, and otherwise OK. The bytes at higher indices have no influence (R113; log entry 15). -/
def decodeOfLength (n : Nat) (bs : List Byte) : Verdict :=
  if n = 0 then .error .invalidInput
  else if Config.maxLen < n then .error .overflow
  else
    match accumulate 0 0 bs with
    | .error k => .error k
    | .ok acc =>
      if bs.dropLast.any isLast then .error .invalidInput
      else if bs.getLast?.any isCont then .error .invalidInput
      else .ok acc

/-- DECODE at the transaction level, on any finite sequence (R110, R112). -/
def decodeSequence (bs : List Byte) : Verdict := decodeOfLength bs.length bs

end Sys2Proof.Machine
end

