-- ==== Sys2Proof/Machine/Ops.lean ====
section
/-! DEFINITION. The operations on State that the meanings share: giving a response, raising an error
kind and returning a value (00_scope.md R12, 60_exceptions.md R146), and what the requester presents
next (the fetch of this block; log entries 4, 5, 7). -/

namespace Sys2Proof.Machine

/-! ### The response of each unit as a function of its request -/

/-- The response of ENC to `enc_value` (R100). -/
def encAnswer (v : Val) : EncOut :=
  { outValid := true, len := lenField (encodeValue v), data := packLanes (encodeValue v) }

/-- An OK response of DEC: `return v` (R12, R118). -/
def returnValue (v : Val) : DecOut := { outValid := true, status := statusOk, value := v }

/-- `raise <Kind>` (R12, R146): the response of the same transaction carries the kind, and
`dec_value` is 0 (R118). Nothing is saved, no mode changes and control goes nowhere (R146), so there
is no return from it either (R149). -/
def raiseKind (k : ErrorKind) : DecOut := { outValid := true, status := statusOf k, value := 0 }

/-- The response of DEC to a verdict (R118). -/
def deliver : Verdict → DecOut
  | .ok v => returnValue v
  | .error k => raiseKind k

/-- The response of DEC to `dec_len` and `dec_data` (R118). -/
def decAnswer (len : Len) (data : Bus) : DecOut :=
  deliver (decodeOfLength len.toNat (carriedBytes len data))

/-- The outputs of ENC as a function of its inputs (R30, R31, R100). -/
def encPort (p : EncIn) : EncOut := if p.inValid then encAnswer p.value else EncOut.idle

/-- The outputs of DEC as a function of its inputs (R30, R31, R118). -/
def decPort (p : DecIn) : DecOut := if p.inValid then decAnswer p.len p.data else DecOut.idle

/-! ### Transactions on the state -/

/-- One ENC transaction: the request signals, the response on the port, and the response taken. -/
def answerEnc (v : Val) (out : EncOut) (s : State) : State :=
  { s with encIn := { inValid := true, value := v }, encOut := out, encTaken := s.encTaken ++ [out] }

/-- One DEC transaction: the request signals, the response on the port, and the response taken. -/
def answerDec (len : Len) (data : Bus) (out : DecOut) (s : State) : State :=
  { s with
    decIn := { inValid := true, len := len, data := data }, decOut := out,
    decTaken := s.decTaken ++ [out] }

/-! ### What the requester presents next -/

/-- `enc_in_valid` lowered, the operand signal as it was (log entry 7). -/
def EncIn.lowered (p : EncIn) : EncIn := { p with inValid := false }

/-- `dec_in_valid` lowered, the operand signals as they were (log entry 7). -/
def DecIn.lowered (p : DecIn) : DecIn := { p with inValid := false }

/-- The request signals of a varint byte on its own: `dec_len = 1`, the byte in lane 0 (log entry 2). -/
def oneByteRequest (b : Byte) : DecIn := { inValid := true, len := 1, data := packLanes [b] }

/-- The request signals during the next step. -/
def nextPins (s : State) : EncIn × DecIn :=
  match s.script with
  | [] => (s.encIn.lowered, s.decIn.lowered)
  | .ports e d :: _ => (e, d)
  | .varintByte b :: _ => (s.encIn.lowered, oneByteRequest b)

/-- The request word that unit ENC is given: none while `enc_in_valid` is 0 (R30, R72). -/
def EncIn.requests (p : EncIn) : List RequestWord := if p.inValid then [.encReq p.value] else []

/-- The request word that unit DEC is given: none while `dec_in_valid` is 0 (R30, R72). -/
def DecIn.requests (p : DecIn) : List RequestWord :=
  if p.inValid then [.decReq (p.len ++ p.data)] else []

/-- The request words of the next presentation, at most one for each unit (R72; log entry 5). -/
def requestWords (s : State) : List RequestWord :=
  match s.script with
  | [] => []
  | .ports e d :: _ => e.requests ++ d.requests
  | .varintByte b :: _ => [.varintByte b]

/-- The state in which the requests of the next presentation stand and no response is given yet:
the request signals driven, both units idle (R30), the presentation taken from the script. -/
def afterFetch (s : State) : State :=
  { s with
    encIn := (nextPins s).1, encOut := EncOut.idle, decIn := (nextPins s).2, decOut := DecOut.idle,
    script := s.script.tail }

/-- The presentation of one request word alone, the other port lowered (log entry 4). -/
def Presentation.ofRequest (s : State) : RequestWord → Presentation
  | .encReq bits => .ports { inValid := true, value := bits } s.decIn.lowered
  | .decReq bits =>
    .ports s.encIn.lowered
      { inValid := true, len := bits.extractLsb' 80 4, data := bits.extractLsb' 0 80 }
  | .varintByte bits => .varintByte bits

/-- The state with the presentation of a request word next; for a byte list that is no request word
the state as it is (log entry 4). -/
def presentNext (bytes : List Byte) (s : State) : State :=
  match requestOfBytes bytes with
  | .error _ => s
  | .ok w => { s with script := Presentation.ofRequest s w :: s.script }

end Sys2Proof.Machine
end

