-- ==== Sys2Proof/Machine/DecUnit.lean ====
section
/-! DEFINITION. The meaning of DECODE (41_decode.md R110, R118). -/

namespace Sys2Proof.Machine

/-- DECODE (R110): unit DEC answers the sequence on its port with the verdict of R112 (R118). An
error kind is a value of the response and the unit goes on (R146, R149, R155); nothing of unit ENC
is touched (R20). -/
def execDecode (len : Len) (data : Bus) (s : State) : Host.Outcome State Fault Refusal :=
  .next (answerDec len data (decAnswer len data) s)

end Sys2Proof.Machine
end

