-- ==== Sys2Proof/Machine/EncUnit.lean ====
section
/-! DEFINITION. The meaning of ENCODE (40_encode.md R90, R100). -/

namespace Sys2Proof.Machine

/-- ENCODE (R90): unit ENC answers `enc_value` with the sequence of R91 on its port (R100). It
cannot fail (R96), writes no status and touches nothing of unit DEC (R20). -/
def execEncode (value : Val) (s : State) : Host.Outcome State Fault Refusal :=
  .next (answerEnc value (encAnswer value) s)

end Sys2Proof.Machine
end

