-- ==== Sys2Proof/Machine/VarintByte.lean ====
section
/-! DEFINITION. The meanings of the two byte classes VB.CONT and VB.LAST (30_encoding.md R61) as
instructions: the DECODE transaction of the sequence of length 1 that the byte is (log entry 2). -/

namespace Sys2Proof.Machine

/-- One varint byte as a whole sequence, given to unit DEC (R110 with `dec_len = 1`). -/
def decodeOneByte (b : Byte) (s : State) : State :=
  answerDec (oneByteRequest b).len (oneByteRequest b).data
    (decAnswer (oneByteRequest b).len (oneByteRequest b).data) s

/-- VB.CONT as a whole sequence: a continuation byte in the last place, where the table says it is
not legal; DEC answers it as truncated (R115, R124 (c)). -/
def execVbCont (chunk : Chunk) (s : State) : Host.Outcome State Fault Refusal :=
  .next (decodeOneByte (contByte chunk) s)

/-- VB.LAST as a whole sequence: a terminal byte in the last place; DEC answers OK with its chunk as
the value (R124 (a), (b)). -/
def execVbLast (chunk : Chunk) (s : State) : Host.Outcome State Fault Refusal :=
  .next (decodeOneByte (lastByte chunk) s)

end Sys2Proof.Machine
end

