-- ==== Sys2Proof/Machine/Dispatch.lean ====
section
/-! DEFINITION. One arm per row of spec/opcode_table.json. -/

namespace Sys2Proof.Machine

/-- The effect of one instruction. -/
def exec (i : Instr) (s : State) : Host.Outcome State Fault Refusal :=
  match i with
  | .encode value => Sys2Proof.Machine.execEncode value s
  | .decode len data => Sys2Proof.Machine.execDecode len data s
  | .vbCont chunk => Sys2Proof.Machine.execVbCont chunk s
  | .vbLast chunk => Sys2Proof.Machine.execVbLast chunk s

end Sys2Proof.Machine
end

