-- ==== Sys2Proof/Machine/Sequence.lean ====
section
/-! DEFINITION. The transactions of one presentation, one after the other (20_memory.md R51). -/

namespace Sys2Proof.Machine

/-- Run the instructions in order, stopping at the first that does not answer a next state. -/
def execAll : List Instr → State → Host.Outcome State Fault Refusal
  | [], s => .next s
  | i :: is, s =>
    match exec i s with
    | .next t => execAll is t
    | .fault r => .fault r
    | .refused r => .refused r

end Sys2Proof.Machine
end

