-- ==== Sys2Proof/Machine/Step.lean ====
section
/-! DEFINITION. One step: one stable presentation of the request signals, and the response of every
unit that is given a request (10_state.md R20, R30; log entry 5). -/

namespace Sys2Proof.Machine

/-- One step. With no unit driven, both are idle and the machine goes on (R30). -/
def step (s : State) : Host.Outcome State Fault Refusal :=
  execAll ((requestWords s).map decodeWord) (afterFetch s)

/-- `s` with the instruction of a table word presented next (log entry 4). -/
def State.withFetchWord (s : State) (nbits w : Nat) : State :=
  presentNext (bytesOfNat (wholeBytes nbits) w) s

end Sys2Proof.Machine
end

