-- ==== Sys2Proof/Machine/Reference.lean ====
section
/-! DEFINITION. The spec's descriptions that are no algorithm: the well-formed, valid and canonical
sequences (30_encoding.md R62 to R64), the assembled value (R65), the closed form of ENCODE
(40_encode.md R92) and the verdict list of DECODE (41_decode.md R111). No meaning calls them:
statements compare the machine with them. -/

namespace Sys2Proof.Machine

/-- `sum of (bs[i] & 0x7F) << (7 × i)` from index `i` on, on natural numbers (R65). -/
def assembleFrom : Nat → List Byte → Nat
  | _, [] => 0
  | i, b :: bs => (b &&& Config.chunkMask).toNat <<< (7 * i) + assembleFrom (i + 1) bs

/-- `A(bs)`, the value a sequence assembles (R65). -/
def assembled (bs : List Byte) : Nat := assembleFrom 0 bs

/-- Non-empty, every byte but the last a continuation byte, the last a terminal byte (R62). -/
def wellFormedSeq (bs : List Byte) : Bool := bs.dropLast.all isCont && bs.getLast?.any isLast

/-- Well-formed, at most 10 bytes, and of a value of at most 2^64 - 1 (R63). -/
def validSeq (bs : List Byte) : Bool :=
  wellFormedSeq bs && decide (bs.length ≤ Config.maxLen) && decide (assembled bs ≤ 2 ^ 64 - 1)

/-- Valid, and of length 1 or with a last chunk that is not zero (R64). -/
def canonicalSeq (bs : List Byte) : Bool :=
  validSeq bs && (decide (bs.length = 1) || bs.getLast?.any fun b => chunkOf b != 0)

/-- `bit_length` (R10, log entry 9): 0 for 0, otherwise the index of the highest set bit plus one. -/
def bitLength (v : Val) : Nat := if v = 0 then 0 else v.toNat.log2 + 1

/-- `max(1, ceil(bit_length(v) / 7))` (R94). -/
def canonicalLength (v : Val) : Nat := max 1 ((bitLength v + 6) / 7)

/-- Byte `i` of the encoding of `v` of length `n`:
`((v >> (7 × i)) & 0x7F) | (0x80 if i < n − 1 else 0x00)` (R92). -/
def closedByte (v : Val) (n i : Nat) : Byte :=
  ((v >>> (7 * i)) &&& 0x7F#64).setWidth 8 ||| (if i < n - 1 then 0x80#8 else 0x00#8)

/-- The closed form of ENCODE (R92). -/
def encodeClosedForm (v : Val) : List Byte :=
  (List.range (canonicalLength v)).map (closedByte v (canonicalLength v))

/-- The first matching row of the list of R111, with the value of row 6 as a natural number. -/
def firstMatchingRow (bs : List Byte) : Except ErrorKind Nat :=
  let n := bs.length
  if n = 0 then .error .invalidInput
  else if n > 10 then .error .overflow
  else if n = 10 ∧ 2 ≤ (bs.getD 9 0 &&& 0x7F#8).toNat then .error .overflow
  else if ∃ i < n - 1, bs.getD i 0 &&& 0x80#8 = 0#8 then .error .invalidInput
  else if bs.getD (n - 1) 0 &&& 0x80#8 ≠ 0#8 then .error .invalidInput
  else .ok (assembled bs)

/-- A verdict with its value read as a natural number. -/
def Verdict.asNat : Verdict → Except ErrorKind Nat
  | .ok v => .ok v.toNat
  | .error k => .error k

end Sys2Proof.Machine
end

