-- ==== Sys2Proof/Safety.lean ====
section
/-! DEFINITION. The terms in which statements speak of safe states and of runs. -/

namespace Sys2Proof.Machine

/-- The outputs are the function of the inputs that the spec gives (10_state.md R31, 70 R170). -/
def Coherent (s : State) : Prop := s.encOut = encPort s.encIn ∧ s.decOut = decPort s.decIn

/-- No reserved value stands on the response signals (R67, R70, R75): `enc_len` is 1 to 10 with
every lane at or above it 0x00, `dec_status` is not 3, `dec_value` is 0 unless the status is OK, and
a unit that gives no response is idle (R30). -/
def LegalOutputs (s : State) : Prop :=
  (s.encOut.outValid = true → 1 ≤ s.encOut.len.toNat ∧ s.encOut.len.toNat ≤ 10 ∧
    ∀ i, s.encOut.len.toNat ≤ i → i ≤ 9 → lane s.encOut.data i = 0x00#8) ∧
  (s.encOut.outValid = false → s.encOut = EncOut.idle) ∧
  (s.decOut.outValid = true → s.decOut.status ≠ 3 ∧ (s.decOut.status ≠ 0 → s.decOut.value = 0)) ∧
  (s.decOut.outValid = false → s.decOut = DecOut.idle)

/-- The values that a script presents to ENC, in order (R51 (b)). -/
def encRequests : List Presentation → List Val
  | [] => []
  | .ports e _ :: rest => (if e.inValid then [e.value] else []) ++ encRequests rest
  | .varintByte _ :: rest => encRequests rest

/-- The requests that a script presents to DEC, in order (R51 (b)); a varint byte is a request of
length 1 (log entry 2). -/
def decRequests : List Presentation → List (Len × Bus)
  | [] => []
  | .ports _ d :: rest => (if d.inValid then [(d.len, d.data)] else []) ++ decRequests rest
  | .varintByte b :: rest => (1, packLanes [b]) :: decRequests rest

end Sys2Proof.Machine
end

