-- ==== Sys2Proof/Certificates/Slice0/Obligations.lean ====
section
/-! DEFINITION. The statements for the provers. Each docstring names the rules of spec/ it
formalises; "decision D<n>" is the spec's own choice (92_eei_decisions.md), "log entry <n>" the
model's (notes/assumptions). -/

open Sys2Proof Sys2Proof.Machine

/-! ### Words -/

/-- Words written out from opcode_table.json: `enc_value = 603`, `dec_len = 2` with
`dec_data = 0x04DB`, `0x96 = 1_0010110`, `0x04 = 0_0000100`. -/
def Obligations.WrittenOutWordsDecode : Prop :=
  decodeTableWord 64 0x000000000000025B = some (.encode 603) ∧
  decodeTableWord 88 0x2000000000000000004DB = some (.decode 2 0x000000000000000004DB) ∧
  decodeTableWord 8 0x96 = some (.vbCont 0x16) ∧
  decodeTableWord 8 0x04 = some (.vbLast 0x04)

/-- For every instruction, with every operand at every value, the bytes written for it are read back
as that instruction (the byte layout is log entry 1). -/
def Obligations.DecodingTheEncodedBytesGivesTheInstruction : Prop :=
  ∀ i : Instr, i.wf = true → decodeBytes (encodeBytes i) = .ok i

/-- The other direction: bytes that are read as an instruction are the bytes written for it, so each
instruction has one word (log entry 1). -/
def Obligations.EncodingTheDecodedInstructionGivesTheBytes : Prop :=
  ∀ (bytes : List Byte) (i : Instr), decodeBytes bytes = .ok i → encodeBytes i = bytes

/-- Raw bytes are rejected exactly when they fit no port, and by the name of what is wrong with them
(the model's own container for a port's bits, log entry 1). -/
def Obligations.RawBytesAreRejectedByTheNameOfTheirDefect : Prop :=
  ∀ bytes : List Byte,
    (decodeBytes bytes = .error .noPortOfThisWidth ↔
      bytes.length ≠ 1 ∧ bytes.length ≠ 8 ∧ bytes.length ≠ 11) ∧
    (decodeBytes bytes = .error .padBitsSet ↔ bytes.length = 11 ∧ 16 ≤ (bytes.getD 10 0).toNat) ∧
    ((∃ i, decodeBytes bytes = .ok i) ↔
      bytes.length = 1 ∨ bytes.length = 8 ∨ bytes.length = 11 ∧ (bytes.getD 10 0).toNat < 16)

/-- R72: every pattern on the ENC port is ENCODE of that value and every pattern on the DEC port is
DECODE of that length and those lanes. R61: every byte is of exactly one of the two classes, told by
bit 7 alone, and its chunk is the other seven bits. -/
def Obligations.EveryPatternOfAPortIsThatPortsOperation : Prop :=
  (∀ bits : BitVec 64, decodeWord (.encReq bits) = .encode bits) ∧
  (∀ (len : Len) (data : Bus), decodeWord (.decReq (len ++ data)) = .decode len data) ∧
  (∀ b : Byte, (b.getLsbD 7 = true → decodeWord (.varintByte b) = .vbCont (b.extractLsb' 0 7)) ∧
    (b.getLsbD 7 = false → decodeWord (.varintByte b) = .vbLast (b.extractLsb' 0 7)))

/-! ### The byte format -/

/-- R62: well-formed means non-empty, every byte but the last with bit 7 set, the last with bit 7
clear, which is the grammar `VB.CONT* VB.LAST` over the two byte classes. -/
def Obligations.WellFormedSequencesAreTheGrammarOfByteClasses : Prop :=
  ∀ bs : List Byte,
    (wellFormedSeq bs = true ↔
      bs ≠ [] ∧ (∀ i < bs.length - 1, bs.getD i 0 &&& 0x80#8 = 0x80#8) ∧
        bs.getD (bs.length - 1) 0 &&& 0x80#8 = 0x00#8) ∧
    (wellFormedSeq bs = true ↔
      ∃ (cs : List Chunk) (c : Chunk),
        bs.map (fun b => decodeWord (.varintByte b)) = cs.map Instr.vbCont ++ [Instr.vbLast c])

/-- R42: chunks stand least significant first. Byte `i` of an encoding carries bits `[7i+6 : 7i]` of
the value, and so does byte `i` of a sequence that DECODE accepts; the sum of the chunks, each
shifted by `7 × i`, is the value. -/
def Obligations.ChunksAreTheValuesBitsLeastSignificantFirst : Prop :=
  (∀ v : Val, assembled (encodeValue v) = v.toNat ∧
    ∀ i < (encodeValue v).length, chunkOf ((encodeValue v).getD i 0) = v.extractLsb' (7 * i) 7) ∧
  (∀ (bs : List Byte) (v : Val), decodeSequence bs = .ok v → assembled bs = v.toNat ∧
    ∀ i < bs.length, chunkOf (bs.getD i 0) = v.extractLsb' (7 * i) 7)

/-- R44 (decision D5): byte `i` of a sequence stands in lane `i`, bits `[8i+7 : 8i]`, and the bus read
as one number is the sum of the bytes shifted by `8 × i`; the example `[0x96, 0x01]` is 0x0196. -/
def Obligations.LanesHoldTheBytesLeastSignificantFirst : Prop :=
  (∀ bs : List Byte, bs.length ≤ 10 →
    (packLanes bs).toNat = ∑ i ∈ Finset.range bs.length, (bs.getD i 0).toNat <<< (8 * i) ∧
    ∀ i ≤ 9, (packLanes bs).extractLsb' (8 * i) 8 = bs.getD i 0x00#8) ∧
  (∀ (data : Bus) (i : Nat), lane data i = data.extractLsb' (8 * i) 8) ∧
  encAnswer 150 = { outValid := true, len := 2, data := 0x00000000000000000196 }

/-! ### ENCODE as a function -/

/-- R92: the loop of R91 computes the closed form. -/
def Obligations.EncodeLoopComputesTheClosedForm : Prop :=
  ∀ v : Val, encodeValue v = encodeClosedForm v

/-- R94: `length(encode(v)) == max(1, ceil(bit_length(v) / 7))`, between 1 and 10 (`bit_length` as
R10 defines it). -/
def Obligations.EncodedLengthIsTheCanonicalLength : Prop :=
  ∀ v : Val, (encodeValue v).length = max 1 (Nat.ceil ((bitLength v : ℚ) / 7)) ∧
    1 ≤ (encodeValue v).length ∧ (encodeValue v).length ≤ 10

/-- The table of R66: length 1 for 0 to 127, length `n` for 2^(7(n-1)) to 2^(7n) - 1, length 10 for
2^63 to 2^64 - 1. -/
def Obligations.EncodedLengthTable : Prop :=
  ∀ (v : Val) (n : Nat), 1 ≤ n → n ≤ 10 →
    ((encodeValue v).length = n ↔
      (if n = 1 then 0 else 2 ^ (7 * (n - 1))) ≤ v.toNat ∧ v.toNat ≤ min (2 ^ (7 * n)) (2 ^ 64) - 1)

/-- R95: every byte of `encode(v)` but the last has bit 7 set and the last has it clear; so the
output is well-formed, and a one-byte output is a byte 0x00 to 0x7F. -/
def Obligations.ContinuationBitsOfTheEncoding : Prop :=
  ∀ v : Val,
    (∀ i < (encodeValue v).length - 1, ((encodeValue v).getD i 0).getLsbD 7 = true) ∧
    ((encodeValue v).getD ((encodeValue v).length - 1) 0).getLsbD 7 = false ∧
    wellFormedSeq (encodeValue v) = true ∧
    (∀ b, encodeValue v = [b] → b.toNat ≤ 0x7F)

/-- R93: the output is the canonical encoding of the value and the only one; when it has more than
one byte its last chunk is not zero, and its last byte is never 0x80. -/
def Obligations.EncodeGivesTheOneCanonicalSequence : Prop :=
  ∀ v : Val,
    (canonicalSeq (encodeValue v) = true ∧ assembled (encodeValue v) = v.toNat) ∧
    (∀ bs : List Byte, canonicalSeq bs = true → assembled bs = v.toNat → bs = encodeValue v) ∧
    (1 < (encodeValue v).length →
      chunkOf ((encodeValue v).getD ((encodeValue v).length - 1) 0) ≠ 0) ∧
    (encodeValue v).getD ((encodeValue v).length - 1) 0 ≠ 0x80#8

/-- R99: the loop of R91 ends by itself after as many passes as the output has bytes, at most ten:
more passes change nothing, and fewer cut the output short. -/
def Obligations.EncodeLoopEndsByItselfWithinTenPasses : Prop :=
  ∀ (v : Val) (passes : Nat),
    ((encodeValue v).length ≤ passes → encodeLoop passes v = encodeValue v) ∧
    (passes < (encodeValue v).length → (encodeLoop passes v).length = passes) ∧
    (encodeValue v).length ≤ 10

/-- The corner cases of R102, with R97 for zero. -/
def Obligations.EncodeCornerCases : Prop :=
  encodeValue 0 = [0x00#8] ∧ (∀ v, encodeValue v ≠ []) ∧
  encodeValue 127 = [0x7F#8] ∧ encodeValue 128 = [0x80#8, 0x01#8] ∧
  (∀ k, 1 ≤ k → k ≤ 9 →
    encodeValue (BitVec.ofNat 64 (2 ^ (7 * k))) = List.replicate k 0x80#8 ++ [0x01#8] ∧
    encodeValue (BitVec.ofNat 64 (2 ^ (7 * k) - 1)) = List.replicate (k - 1) 0xFF#8 ++ [0x7F#8]) ∧
  encodeValue (BitVec.ofNat 64 (2 ^ 64 - 1)) = List.replicate 9 0xFF#8 ++ [0x01#8] ∧
  (∀ v, (encodeValue v).length = 10 → (encodeValue v).getD 9 0 = 0x01#8) ∧
  encodeValue 16384 = [0x80#8, 0x80#8, 0x01#8]

/-- R101: for every 64-bit `v`, DECODE of ENCODE's output is OK with value `v`. -/
def Obligations.DecodeOfEncodeIsTheValue : Prop :=
  ∀ v : Val, decodeSequence (encodeValue v) = .ok v

/-! ### DECODE as a function -/

/-- R111 (row 4 and part of the order are decisions D8 and D9): the checks and loops of R112 give
the verdict of the first row of the list whose condition holds, with the value as a natural number,
so that nothing is clamped or wrapped. -/
def Obligations.DecodeGivesTheFirstMatchingRow : Prop :=
  ∀ bs : List Byte, (decodeSequence bs).asNat = firstMatchingRow bs

/-- R63: DECODE answers OK exactly the valid sequences, with the value they assemble. -/
def Obligations.DecodeAcceptsExactlyTheValidSequences : Prop :=
  ∀ (bs : List Byte) (v : Val),
    decodeSequence bs = .ok v ↔ validSeq bs = true ∧ assembled bs = v.toNat

/-- R113: any sequence of more than 10 bytes is `Overflow`, whatever its bytes; at the port the
condition is `dec_len >= 11`, whatever the lanes. -/
def Obligations.LongerThanTenBytesIsOverflow : Prop :=
  (∀ bs : List Byte, 10 < bs.length → decodeSequence bs = .error .overflow) ∧
  (∀ (len : Len) (data : Bus) (s : State), 11 ≤ len.toNat →
    ∃ t, exec (.decode len data) s = .next t ∧
      t.decOut = { outValid := true, status := 2, value := 0 })

/-- R114: with at most 10 bytes the assembled value is below 2^(7n); it can exceed 2^64 - 1 only at
length 10, and there exactly when the tenth chunk is 2 or more; and DECODE of such a sequence is
`Overflow` exactly when the value it assembles exceeds 2^64 - 1: it is never clamped or truncated. -/
def Obligations.OnlyATenthChunkOfTwoOrMoreOverflows : Prop :=
  ∀ bs : List Byte, bs.length ≤ 10 →
    assembled bs < 2 ^ (7 * bs.length) ∧
    (bs.length ≤ 9 → assembled bs ≤ 2 ^ 63 - 1) ∧
    (bs.length = 10 → (2 ^ 64 - 1 < assembled bs ↔ 2 ≤ (bs.getD 9 0 &&& 0x7F#8).toNat)) ∧
    (decodeSequence bs = .error .overflow ↔ 2 ^ 64 - 1 < assembled bs)

/-- R115: a sequence of 1 to 10 bytes that matches neither row 3 nor row 4 of R111 and whose last
byte has bit 7 set is `InvalidInput`; the source's example is `[0x96]`. -/
def Obligations.TruncatedSequencesAreInvalidInput : Prop :=
  (∀ bs : List Byte, 1 ≤ bs.length → bs.length ≤ 10 →
    ¬ (bs.length = 10 ∧ 2 ≤ (bs.getD 9 0 &&& 0x7F#8).toNat) →
    ¬ (∃ i < bs.length - 1, bs.getD i 0 &&& 0x80#8 = 0#8) →
    bs.getD (bs.length - 1) 0 &&& 0x80#8 ≠ 0#8 →
    decodeSequence bs = .error .invalidInput) ∧
  decodeSequence [0x96#8] = .error .invalidInput

/-- R117 (decision D8, log entry 10): a sequence of 2 to 10 bytes that does not match row 3 and has a
byte before the last with bit 7 clear is `InvalidInput`; and, row 3 or not, it is never answered OK. -/
def Obligations.InteriorTerminatorsAreNeverAccepted : Prop :=
  ∀ bs : List Byte, 2 ≤ bs.length → bs.length ≤ 10 →
    (∃ i < bs.length - 1, bs.getD i 0 &&& 0x80#8 = 0#8) →
    (¬ (bs.length = 10 ∧ 2 ≤ (bs.getD 9 0 &&& 0x7F#8).toNat) →
      decodeSequence bs = .error .invalidInput) ∧
    (∀ v, decodeSequence bs ≠ .ok v)

/-- First two clauses, R116 (decision D7, log entry 12): a valid sequence whose last chunk is zero and
whose length is above 1 is answered OK with the value it assembles and is not what ENCODE gives for
it, and DECODE is not injective. Last clause, property Q6 with the canonical sequences of R64: ENCODE
of what DECODE gives is the sequence exactly when it is canonical. -/
def Obligations.OverLongSequencesAreAccepted : Prop :=
  (∀ bs : List Byte, validSeq bs = true → 1 < bs.length →
    chunkOf (bs.getD (bs.length - 1) 0) = 0 →
    ∃ v, decodeSequence bs = .ok v ∧ v.toNat = assembled bs ∧ encodeValue v ≠ bs) ∧
  (∃ bs cs v, bs ≠ cs ∧ decodeSequence bs = .ok v ∧ decodeSequence cs = .ok v) ∧
  (∀ (bs : List Byte) (v : Val), decodeSequence bs = .ok v →
    (encodeValue v = bs ↔ canonicalSeq bs = true))

/-- R120: the value of an OK response depends only on the chunks: it is the sum of the chunks, each
shifted left by `7 × i`, and the continuation bits contribute nothing to it. They decide only between
OK and `InvalidInput`: two sequences with the same chunks have the same value when both are OK, and
the one is `Overflow` exactly when the other is. -/
def Obligations.ContinuationBitsDoNotReachTheValue : Prop :=
  (∀ (bs : List Byte) (v : Val), decodeSequence bs = .ok v →
    v.toNat = ∑ i ∈ Finset.range bs.length, (chunkOf (bs.getD i 0)).toNat <<< (7 * i)) ∧
  (∀ bs cs : List Byte, bs.map chunkOf = cs.map chunkOf →
    (∀ v w, decodeSequence bs = .ok v → decodeSequence cs = .ok w → v = w) ∧
    (decodeSequence bs = .error .overflow ↔ decodeSequence cs = .error .overflow))

/-- R142: `Overflow` has exactly two causes, a length above 10 and a ten-byte sequence whose tenth
chunk is 2 or more; ENCODE never raises it: it leaves the status as it was. -/
def Obligations.OverflowHasExactlyTwoCauses : Prop :=
  (∀ bs : List Byte, decodeSequence bs = .error .overflow ↔
    10 < bs.length ∨ bs.length = 10 ∧ 2 ≤ (bs.getD 9 0 &&& 0x7F#8).toNat) ∧
  (∀ (v : Val) (s t : State), exec (.encode v) s = .next t → t.decOut = s.decOut)

/-- R141 with R145 (decisions D8, D9): `InvalidInput` has exactly three causes, the empty sequence
and, when no `Overflow` cause holds, a last byte with bit 7 set or an earlier byte with bit 7 clear;
ENCODE never raises it: it leaves the status as it was. -/
def Obligations.InvalidInputHasExactlyThreeCauses : Prop :=
  (∀ bs : List Byte, decodeSequence bs = .error .invalidInput ↔
    bs = [] ∨
    bs.length ≤ 10 ∧ ¬ (bs.length = 10 ∧ 2 ≤ (bs.getD 9 0 &&& 0x7F#8).toNat) ∧
      (bs.getD (bs.length - 1) 0 &&& 0x80#8 ≠ 0#8 ∨
        ∃ i < bs.length - 1, bs.getD i 0 &&& 0x80#8 = 0#8)) ∧
  (∀ (v : Val) (s t : State), exec (.encode v) s = .next t → t.decOut = s.decOut)

/-! ### The instructions on the machine -/

/-- R100 (decisions D5, D11). Every ENCODE completes: `enc_out_valid = 1`, `enc_len = n`, lane `i` of
`enc_data` is byte `i` of the sequence of R91 for `i < n` and 0x00 for `n <= i <= 9`; and whenever
`enc_in_valid = 0` the outputs of ENC are idle. That the response is taken in the same transaction and
kept in `encTaken` is no part of R100 but the model's choice (log entry 6). -/
def Obligations.EncodeAnswersOnItsPort : Prop :=
  (∀ (v : Val) (s : State), ∃ t, exec (.encode v) s = .next t ∧
    t.encIn = { inValid := true, value := v } ∧ t.encOut.outValid = true ∧
    t.encOut.len.toNat = (encodeValue v).length ∧
    (∀ i < (encodeValue v).length, lane t.encOut.data i = (encodeValue v).getD i 0) ∧
    (∀ i, (encodeValue v).length ≤ i → i ≤ 9 → lane t.encOut.data i = 0x00#8) ∧
    t.encTaken = s.encTaken ++ [t.encOut]) ∧
  (∀ s t : State, step s = .next t → t.encIn.inValid = false →
    t.encOut = { outValid := false, len := 0, data := 0 })

/-- R118 (decisions D6, D10, D11). Every DECODE completes: for every sequence that the request may
stand for (its length is `dec_len` and its bytes below index 10 are those of the lanes below
`dec_len`, whatever the other lanes hold), `dec_status` and `dec_value` are 0 and the value when R111
gives OK, 1 and 0 for `InvalidInput`, 2 and 0 for `Overflow`; and whenever `dec_in_valid = 0` the
outputs of DEC are idle. That the response is taken in the same transaction and kept in `decTaken` is
no part of R118 but the model's choice (log entry 6). -/
def Obligations.PortDecodeRefinesSequenceDecode : Prop :=
  (∀ (len : Len) (data : Bus) (bs : List Byte) (s : State), bs.length = len.toNat →
    (∀ i < min len.toNat 10, bs.getD i 0 = lane data i) →
    ∃ t, exec (.decode len data) s = .next t ∧
      t.decIn = { inValid := true, len := len, data := data } ∧ t.decOut.outValid = true ∧
      (match firstMatchingRow bs with
        | .ok a => t.decOut.status = 0 ∧ t.decOut.value.toNat = a
        | .error .invalidInput => t.decOut.status = 1 ∧ t.decOut.value = 0
        | .error .overflow => t.decOut.status = 2 ∧ t.decOut.value = 0) ∧
      t.decTaken = s.decTaken ++ [t.decOut]) ∧
  (∀ s t : State, step s = .next t → t.decIn.inValid = false →
    t.decOut = { outValid := false, status := 0, value := 0 })

/-- R68 (decision D4): a lane at or above `dec_len` cannot change the response, and when
`dec_len > 10` no lane can; so neither the responses taken (log entry 6). -/
def Obligations.IgnoredLanesCannotChangeTheResponse : Prop :=
  ∀ (len : Len) (d e : Bus) (s t u : State),
    (len.toNat ≤ 10 → ∀ i < len.toNat, lane d i = lane e i) →
    exec (.decode len d) s = .next t → exec (.decode len e) s = .next u →
    t.decOut = u.decOut ∧ t.decTaken = u.decTaken

/-- R122: `decode([])` fails with `InvalidInput`; at the port the empty sequence is `dec_len = 0`, and
the content of `dec_data` is ignored. -/
def Obligations.EmptySequenceIsInvalidInput : Prop :=
  decodeSequence [] = .error .invalidInput ∧
  ∀ (data : Bus) (s : State), ∃ t, exec (.decode 0 data) s = .next t ∧
    t.decOut = { outValid := true, status := 1, value := 0 }

/-- VB.CONT completes: a continuation byte alone is DECODE of a truncated sequence of length 1,
`InvalidInput` (the verdict is R115's). That a byte alone is run so is the model's choice (log entry
2), and that its response is kept in `decTaken` is too (log entry 6). -/
def Obligations.VbContAloneIsTruncated : Prop :=
  ∀ (c : Chunk) (s : State), ∃ t, exec (.vbCont c) s = .next t ∧
    t.decIn = { inValid := true, len := 1, data := (1#1 ++ c).setWidth 80 } ∧
    t.decOut = { outValid := true, status := 1, value := 0 } ∧
    t.decTaken = s.decTaken ++ [t.decOut]

/-- VB.LAST completes: a terminal byte alone is DECODE of a complete sequence of length 1, OK with
its chunk as the value (the verdict is row 6 of R111). That a byte alone is run so is the model's
choice (log entry 2), and that its response is kept in `decTaken` is too (log entry 6). -/
def Obligations.VbLastAloneIsItsChunk : Prop :=
  ∀ (c : Chunk) (s : State), ∃ t, exec (.vbLast c) s = .next t ∧
    t.decIn = { inValid := true, len := 1, data := (0#1 ++ c).setWidth 80 } ∧
    t.decOut = { outValid := true, status := 0, value := c.setWidth 64 } ∧
    t.decTaken = s.decTaken ++ [t.decOut]

/-- The frames: ENCODE leaves every DEC signal, the DEC responses taken and the script unchanged;
DECODE, VB.CONT and VB.LAST leave every ENC signal, the ENC responses taken and the script unchanged.
For the signals this is R20 ("The two units share no signal and no state"), and there is no register,
flag or memory beside them (R21 to R25, R40). The script (log entry 4), the lists of responses taken
(log entry 6) and VB.CONT and VB.LAST as DEC transactions (log entry 2) are the model's choices. -/
def Obligations.EachUnitLeavesTheOtherUnchanged : Prop :=
  (∀ (v : Val) (s t : State), exec (.encode v) s = .next t →
    t.decIn = s.decIn ∧ t.decOut = s.decOut ∧ t.decTaken = s.decTaken ∧ t.script = s.script) ∧
  (∀ (i : Instr) (s t : State), (∀ v, i ≠ .encode v) → exec i s = .next t →
    t.encIn = s.encIn ∧ t.encOut = s.encOut ∧ t.encTaken = s.encTaken ∧ t.script = s.script)

/-- R101 on the ports: what ENC answers, copied unchanged into a DECODE request, comes back as the
value with status OK. -/
def Obligations.PortRoundTrip : Prop :=
  ∀ (v : Val) (s t : State), exec (.encode v) s = .next t →
    ∃ u, exec (.decode t.encOut.len t.encOut.data) t = .next u ∧
      u.decOut = { outValid := true, status := 0, value := v }

/-! ### The step -/

/-- A step runs the decoded instruction: (1) raw bytes that decode to a well-formed instruction, put
next, are run as that instruction on the state in which the request stands; (2) a presentation of
both ports is run as ENC's instruction and then DEC's; (3) what that state holds: the request
signals as presented, both units idle, the presentation taken from the script, nothing else changed
(log entries 4 and 5). -/
def Obligations.StepRunsTheDecodedInstruction : Prop :=
  (∀ (s : State) (bytes : List Byte) (i : Instr), decodeBytes bytes = .ok i → i.wf = true →
    step (presentNext bytes s) = exec i (afterFetch (presentNext bytes s))) ∧
  (∀ (s : State) (e : EncIn) (d : DecIn) (rest : List Presentation), s.script = .ports e d :: rest →
    (e.inValid = true → d.inValid = false → step s = exec (.encode e.value) (afterFetch s)) ∧
    (e.inValid = false → d.inValid = true → step s = exec (.decode d.len d.data) (afterFetch s)) ∧
    (e.inValid = true → d.inValid = true → ∃ t, exec (.encode e.value) (afterFetch s) = .next t ∧
      step s = exec (.decode d.len d.data) t) ∧
    (afterFetch s).encIn = e ∧ (afterFetch s).decIn = d) ∧
  (∀ s : State, (afterFetch s).encOut = EncOut.idle ∧ (afterFetch s).decOut = DecOut.idle ∧
    (afterFetch s).script = s.script.tail ∧ (afterFetch s).encTaken = s.encTaken ∧
    (afterFetch s).decTaken = s.decTaken)

/-- R30 (decision D11): a unit is always able to accept, so every step answers a next state; there
`*_out_valid` equals `*_in_valid`, a unit with `*_in_valid = 0` has idle outputs, and its other
request inputs are ignored: two states that differ only in them (in the presentation and on the
signals) step to the same outputs and the same responses taken. The presentations of a script, one a
step, and the lists of responses taken are the model's choices (log entries 4, 5, 6). -/
def Obligations.ValidFollowsValidAndIdleOutputsAreZero : Prop :=
  (∀ s : State, ∃ t, step s = .next t ∧
    t.encOut.outValid = t.encIn.inValid ∧ t.decOut.outValid = t.decIn.inValid ∧
    (t.encIn.inValid = false → t.encOut = { outValid := false, len := 0, data := 0 }) ∧
    (t.decIn.inValid = false → t.decOut = { outValid := false, status := 0, value := 0 })) ∧
  (∀ (s r t u : State) (e f : EncIn) (d g : DecIn) (rest : List Presentation),
    s.script = .ports e d :: rest → r.script = .ports f g :: rest →
    e.inValid = f.inValid → (e.inValid = true → e = f) →
    d.inValid = g.inValid → (d.inValid = true → d = g) →
    s.encTaken = r.encTaken → s.decTaken = r.decTaken →
    step s = .next t → step r = .next u →
    t.encOut = u.encOut ∧ t.decOut = u.decOut ∧ t.encTaken = u.encTaken ∧ t.decTaken = u.decTaken)

/-- R31: the outputs are functions of the inputs at every instant. Every step establishes it, from
whatever state, and every instruction keeps it. -/
def Obligations.OutputsStayTheFunctionOfTheInputs : Prop :=
  (∀ s t : State, step s = .next t → Coherent t) ∧
  (∀ (i : Instr) (s t : State), Coherent s → exec i s = .next t → Coherent t)

/-- R75 (decisions D4, D6): `dec_status = 3` and, with `enc_out_valid = 1`, `enc_len` 0 and 11 to 15
are never produced, by a step from any state or by an instruction from a state without them;
`dec_len` 11 to 15 is legal and answered `Overflow`. With it, the zero fill of R67 and the filler of
R70. -/
def Obligations.ReservedValuesAreNeverProduced : Prop :=
  (∀ s t : State, step s = .next t → LegalOutputs t) ∧
  (∀ (i : Instr) (s t : State), LegalOutputs s → exec i s = .next t → LegalOutputs t) ∧
  (∀ (len : Len) (data : Bus) (s : State), 11 ≤ len.toNat →
    ∃ t, exec (.decode len data) s = .next t ∧ t.decOut.outValid = true ∧ t.decOut.status = 2)

/-- Reset (R31, R170): no request stands and the outputs are the idle values; so the outputs are the
function of the inputs and no reserved value stands. That the request operands are 0 and the
requester's lists empty is the model's choice (log entries 3, 4, 6). -/
def Obligations.ResetIsIdleAndSafe : Prop :=
  State.reset.encIn.inValid = false ∧ State.reset.decIn.inValid = false ∧
  State.reset.encOut = { outValid := false, len := 0, data := 0 } ∧
  State.reset.decOut = { outValid := false, status := 0, value := 0 } ∧
  Coherent State.reset ∧ LegalOutputs State.reset

/-- R155: no run is ever stuck, faulted or refused. -/
def Obligations.NoRunEverStops : Prop :=
  ∀ (k : Nat) (s : State), ∃ t, Sys2Proof.core.run k s = .next t

/-- R51 (decision D14): the run of a script answers every request, each unit in the order of its
requests, each response a function of its own request alone; so two scripts with the same requests
for each unit, however the two units' requests are interleaved, give the same responses. The script
(log entry 4), one presentation a step (log entry 5), the lists of responses taken (log entry 6) and
a varint byte as a DEC request (log entry 2) are the model's choices. -/
def Obligations.RunsAnswerEveryRequestInOrder : Prop :=
  (∀ s : State, ∃ t, Sys2Proof.core.run s.script.length s = .next t ∧ t.script = [] ∧
    t.encTaken = s.encTaken ++ (encRequests s.script).map encAnswer ∧
    t.decTaken = s.decTaken ++ (decRequests s.script).map fun r => decAnswer r.1 r.2) ∧
  (∀ s r t u : State, encRequests s.script = encRequests r.script →
    decRequests s.script = decRequests r.script →
    s.encTaken = r.encTaken → s.decTaken = r.decTaken →
    Sys2Proof.core.run s.script.length s = .next t →
    Sys2Proof.core.run r.script.length r = .next u →
    t.encTaken = u.encTaken ∧ t.decTaken = u.decTaken)

/-- R51 (c) and program P4: a transaction of ENC and one of DEC give the same state in either order,
and presented at the same instant they give the same outputs. VB.CONT and VB.LAST as transactions of
DEC, the responses taken, and one step for a presentation of both units are the model's choices (log
entries 2, 4, 5, 6). -/
def Obligations.EncAndDecTransactionsCommute : Prop :=
  ∀ (v : Val) (i : Instr) (s : State), (∀ w, i ≠ .encode w) →
    ∃ t u r, exec (.encode v) s = .next t ∧ exec i s = .next u ∧
      exec i t = .next r ∧ exec (.encode v) u = .next r ∧
      r.encOut = t.encOut ∧ r.decOut = u.decOut ∧
      ∀ (len : Len) (data : Bus) (q : State), i = .decode len data →
        q.script = [.ports { inValid := true, value := v }
          { inValid := true, len := len, data := data }] →
        ∃ p, step q = .next p ∧ p.encOut = r.encOut ∧ p.decOut = r.decOut

/-- R13, and with it R149 (an error leaves no trace): the response of a transaction is a function of
its request alone. From any two states, whatever was answered before, the same instruction gives the
same response and the same presentation gives the same outputs on both units. The presentations of a
script, one a step, and VB.CONT and VB.LAST as transactions of DEC are the model's choices (log entries
2, 4, 5). -/
def Obligations.ResponsesDependOnTheRequestAlone : Prop :=
  (∀ (i : Instr) (s r t u : State), exec i s = .next t → exec i r = .next u →
    ((∃ v, i = .encode v) → t.encIn = u.encIn ∧ t.encOut = u.encOut) ∧
    ((∀ v, i ≠ .encode v) → t.decIn = u.decIn ∧ t.decOut = u.decOut)) ∧
  (∀ (s r t u : State) (p : Presentation), s.script.head? = some p → r.script.head? = some p →
    step s = .next t → step r = .next u → t.encOut = u.encOut ∧ t.decOut = u.decOut)
end

