-- ==== Sys2Proof/Laws/Bytes.lean ====
section
/-! SUPPORT. The fields of a varint byte, the byte classes, and the words of raw bytes. -/

namespace Sys2Proof

theorem isCont_eq_bit (b : Byte) : isCont b = b.getLsbD 7 := by
  revert b; decide

theorem isLast_eq_not_isCont (b : Byte) : isLast b = !isCont b := by
  revert b; decide

theorem isCont_contByte (c : Chunk) : isCont (contByte c) = true := by
  revert c; decide

theorem isCont_lastByte (c : Chunk) : isCont (lastByte c) = false := by
  revert c; decide

theorem isLast_contByte (c : Chunk) : isLast (contByte c) = false := by
  revert c; decide

theorem isLast_lastByte (c : Chunk) : isLast (lastByte c) = true := by
  revert c; decide

theorem chunkOf_contByte (c : Chunk) : chunkOf (contByte c) = c := by
  revert c; decide

theorem chunkOf_lastByte (c : Chunk) : chunkOf (lastByte c) = c := by
  revert c; decide

theorem chunkOf_toNat (b : Byte) : (chunkOf b).toNat = (b &&& Config.chunkMask).toNat := by
  revert b; decide

/-- A continuation byte is determined by its chunk. -/
theorem contByte_chunkOf {b : Byte} (h : isCont b = true) : contByte (chunkOf b) = b := by
  revert b; decide

/-- A terminal byte is determined by its chunk. -/
theorem lastByte_chunkOf {b : Byte} (h : isCont b = false) : lastByte (chunkOf b) = b := by
  revert b; decide

theorem decodeByte_contByte (c : Chunk) : decodeByte (contByte c) = .vbCont c := by
  simp [decodeByte, isCont_contByte, chunkOf_contByte]

theorem decodeByte_lastByte (c : Chunk) : decodeByte (lastByte c) = .vbLast c := by
  simp [decodeByte, isCont_lastByte, chunkOf_lastByte]

/-! ### Raw bytes -/

theorem length_bytesOfNat (k w : Nat) : (bytesOfNat k w).length = k := by
  induction k generalizing w with
  | zero => rfl
  | succ k ih => simp [bytesOfNat, ih]

theorem natOfBytes_bytesOfNat (k w : Nat) : natOfBytes (bytesOfNat k w) = w % 256 ^ k := by
  induction k generalizing w with
  | zero => simp [bytesOfNat, natOfBytes, Nat.mod_one]
  | succ k ih =>
    simp only [bytesOfNat, natOfBytes, ih, BitVec.toNat_ofNat]
    rw [show 256 ^ (k + 1) = 256 * 256 ^ k from pow_succ' _ _, @Nat.mod_mul 256 (256 ^ k) w]

theorem natOfBytes_lt (bs : List Byte) : natOfBytes bs < 256 ^ bs.length := by
  induction bs with
  | nil => simp [natOfBytes]
  | cons b bs ih =>
    have hb := b.isLt
    simp only [natOfBytes, List.length_cons, pow_succ']
    omega

theorem bytesOfNat_natOfBytes (bs : List Byte) : bytesOfNat bs.length (natOfBytes bs) = bs := by
  induction bs with
  | nil => rfl
  | cons b bs ih =>
    have hb := b.isLt
    simp only [natOfBytes, List.length_cons, bytesOfNat]
    have h1 : (b.toNat + 256 * natOfBytes bs) / 256 = natOfBytes bs := by omega
    rw [h1, ih]
    congr 1
    apply BitVec.eq_of_toNat_eq
    simp only [BitVec.toNat_ofNat]
    omega

end Sys2Proof
end

