-- ==== Sys2Proof/Laws/Codec.lean ====
section
/-! SUPPORT. The loops of ENCODE and DECODE: one pass of each, and what the first loop of DECODE
answers. -/

namespace Sys2Proof.Machine

/-! ### ENCODE -/

/-- The last pass of R91: nothing remains after the shift. -/
theorem encodeLoop_last (p : Nat) (rem : Val) (h : rem >>> 7 = 0) :
    encodeLoop (p + 1) rem = [lastByte (rem.setWidth 7)] := by
  simp [encodeLoop, h]

/-- Any other pass of R91: a continuation byte, and the loop on what remains. -/
theorem encodeLoop_cont (p : Nat) (rem : Val) (h : rem >>> 7 ≠ 0) :
    encodeLoop (p + 1) rem = contByte (rem.setWidth 7) :: encodeLoop p (rem >>> 7) := by
  simp only [encodeLoop]
  rw [if_neg h]

/-- The loop has run its course when it is left with at most one chunk: the shift of seven bits. -/
theorem shift_eq_zero_iff (v : Val) : v >>> 7 = 0 ↔ v.toNat < 2 ^ 7 := by
  rw [← BitVec.toNat_inj, BitVec.toNat_ushiftRight, Nat.shiftRight_eq_div_pow]
  simp

theorem toNat_shift (v : Val) : (v >>> 7).toNat = v.toNat / 2 ^ 7 := by
  rw [BitVec.toNat_ushiftRight, Nat.shiftRight_eq_div_pow]

/-- The loop never emits the empty sequence (R97). -/
theorem encodeLoop_ne_nil (p : Nat) (rem : Val) : encodeLoop (p + 1) rem ≠ [] := by
  by_cases h : rem >>> 7 = 0
  · simp [encodeLoop_last p rem h]
  · simp [encodeLoop_cont p rem h]

/-! ### The assembled value -/

theorem assembleFrom_cons (i : Nat) (b : Byte) (bs : List Byte) :
    assembleFrom i (b :: bs) = (chunkOf b).toNat * 2 ^ (7 * i) + assembleFrom (i + 1) bs := by
  rw [assembleFrom, ← chunkOf_toNat, Nat.shiftLeft_eq]

/-- Starting `i` chunks higher multiplies the assembled value. -/
theorem assembleFrom_eq (i : Nat) (bs : List Byte) :
    assembleFrom i bs = assembled bs * 2 ^ (7 * i) := by
  induction bs generalizing i with
  | nil => simp [assembled, assembleFrom]
  | cons b bs ih =>
    rw [assembled, assembleFrom_cons, assembleFrom_cons, ih (i + 1), ih (0 + 1), add_mul]
    congr 1
    · simp
    · rw [mul_assoc, ← pow_add]; congr 2; ring

/-- The value of a sequence from its first byte and the rest. -/
theorem assembled_cons (b : Byte) (bs : List Byte) :
    assembled (b :: bs) = (chunkOf b).toNat + 2 ^ 7 * assembled bs := by
  rw [assembled, assembleFrom_cons, assembleFrom_eq]
  simp [mul_comm]

/-- A sequence of `n` bytes assembles at most `7n` bits (R114). -/
theorem assembled_lt (bs : List Byte) : assembled bs < 2 ^ (7 * bs.length) := by
  induction bs with
  | nil => simp [assembled, assembleFrom]
  | cons b bs ih =>
    have hb := (chunkOf b).isLt
    rw [assembled_cons, List.length_cons, Nat.mul_succ, pow_add]
    omega

/-- The assembled value as one sum over the indices (R65). -/
theorem assembled_eq_sum (bs : List Byte) :
    assembled bs = ∑ i ∈ Finset.range bs.length, (chunkOf (bs.getD i 0)).toNat <<< (7 * i) := by
  induction bs with
  | nil => rfl
  | cons b bs ih =>
    rw [assembled_cons, ih, List.length_cons, Finset.sum_range_succ', Finset.mul_sum, add_comm]
    congr 1
    apply Finset.sum_congr rfl
    intro i _
    simp only [Nat.shiftLeft_eq, List.getD_cons_succ]
    rw [show 7 * (i + 1) = 7 * i + 7 by ring, pow_add]
    ring

/-! ### DECODE -/

/-- OR of a chunk above the bits gathered so far is addition (R65, R121). -/
theorem toNat_or_chunk (i : Nat) (acc : Val) (c : Chunk) (hacc : acc.toNat < 2 ^ (7 * i))
    (hi : i ≤ 9) (hc : i = 9 → c.toNat < 2) :
    (acc ||| (c.setWidth 64 <<< (7 * i))).toNat = acc.toNat + c.toNat * 2 ^ (7 * i) ∧
      acc.toNat + c.toNat * 2 ^ (7 * i) < 2 ^ 64 := by
  have hcl := c.isLt
  have hfit : c.toNat * 2 ^ (7 * i) + 2 ^ (7 * i) ≤ 2 ^ 64 := by
    rw [← Nat.succ_mul]
    rcases Nat.lt_or_ge i 9 with h | h
    · calc (c.toNat + 1) * 2 ^ (7 * i) ≤ 2 ^ 7 * 2 ^ (7 * 8) :=
            Nat.mul_le_mul (by omega) (Nat.pow_le_pow_right (by norm_num) (by omega))
        _ ≤ 2 ^ 64 := by norm_num
    · obtain rfl : i = 9 := by omega
      have := hc rfl
      calc (c.toNat + 1) * 2 ^ (7 * 9) ≤ 2 * 2 ^ (7 * 9) := Nat.mul_le_mul_right _ (by omega)
        _ ≤ 2 ^ 64 := by norm_num
  have hpos : 0 < 2 ^ (7 * i) := by positivity
  refine ⟨?_, by omega⟩
  simp only [BitVec.toNat_or, BitVec.toNat_shiftLeft, BitVec.toNat_setWidth]
  rw [Nat.mod_eq_of_lt (a := c.toNat) (by omega), Nat.shiftLeft_eq, Nat.mod_eq_of_lt (by omega),
    Nat.or_comm, ← Nat.shiftLeft_eq, ← Nat.shiftLeft_add_eq_or_of_lt hacc, Nat.shiftLeft_eq]
  omega

/-- What the first loop of R112 answers, from index `i` with the bits below `7i` gathered: `Overflow`
when the sequence reaches index 9 with a chunk of 2 or more, otherwise the value. -/
theorem accumulate_spec (i : Nat) (acc : Val) (bs : List Byte) (hlen : i + bs.length ≤ 10)
    (hacc : acc.toNat < 2 ^ (7 * i)) :
    if 9 < i + bs.length ∧ i ≤ 9 ∧ 2 ≤ (chunkOf (bs.getD (9 - i) 0)).toNat then
      accumulate i acc bs = .error .overflow
    else ∃ v, accumulate i acc bs = .ok v ∧ v.toNat = acc.toNat + assembleFrom i bs := by
  induction bs generalizing i acc with
  | nil =>
    have : ¬ (9 < i + ([] : List Byte).length ∧ i ≤ 9 ∧
        2 ≤ (chunkOf (([] : List Byte).getD (9 - i) 0)).toNat) := by simp; omega
    rw [if_neg this]
    exact ⟨acc, rfl, by simp [assembleFrom]⟩
  | cons b bs ih =>
    rw [List.length_cons] at hlen
    by_cases hov : i = 9 ∧ 2 ≤ (chunkOf b).toNat
    · obtain ⟨rfl, h2⟩ := hov
      rw [if_pos ⟨by simp, le_refl _, by simpa using h2⟩]
      simp [accumulate, h2]
    · have hstep : accumulate i acc (b :: bs) =
          accumulate (i + 1) (acc ||| ((chunkOf b).setWidth 64 <<< (7 * i))) bs := by
        rw [accumulate]; simp only [hov, if_false]
      obtain ⟨hor, -⟩ := toNat_or_chunk i acc (chunkOf b) hacc (by omega) (by omega)
      have hbl := (chunkOf b).isLt
      have hacc' : (acc ||| ((chunkOf b).setWidth 64 <<< (7 * i))).toNat < 2 ^ (7 * (i + 1)) := by
        rw [hor, Nat.mul_succ, pow_add]
        have : 0 < 2 ^ (7 * i) := by positivity
        nlinarith
      have ih := ih (i + 1) _ (by omega) hacc'
      rw [hstep, assembleFrom_cons]
      by_cases h9 : i = 9
      · subst h9
        have hbs : bs = [] := List.length_eq_zero_iff.mp (by omega)
        subst hbs
        rw [if_neg (by simpa using hov)]
        exact ⟨_, rfl, by rw [hor]; simp [assembleFrom]⟩
      · have hget : (b :: bs).getD (9 - i) 0 = bs.getD (9 - (i + 1)) 0 := by
          rw [show 9 - i = (9 - (i + 1)) + 1 by omega]; simp
        rw [hor] at ih
        rw [hget, List.length_cons]
        split at ih
        · rename_i h; rw [if_pos ⟨by omega, by omega, h.2.2⟩]; exact ih
        · rename_i h
          rw [if_neg (fun h' => h ⟨by omega, by omega, h'.2.2⟩)]
          obtain ⟨v, hv, e⟩ := ih
          exact ⟨v, hv, by omega⟩

/-- Every byte but the last, by index. -/
theorem dropLast_any_isLast (bs : List Byte) :
    bs.dropLast.any isLast = true ↔ ∃ i < bs.length - 1, isLast (bs.getD i 0) = true := by
  rw [List.any_eq_true]
  constructor
  · rintro ⟨b, hb, h⟩
    obtain ⟨i, hi, rfl⟩ := List.mem_iff_getElem.mp hb
    rw [List.length_dropLast] at hi
    refine ⟨i, hi, ?_⟩
    rwa [List.getD_eq_getElem _ _ (by omega), ← List.getElem_dropLast (by simpa using hi)]
  · rintro ⟨i, hi, h⟩
    refine ⟨bs.dropLast[i]'(by simpa using hi), List.getElem_mem _, ?_⟩
    rwa [List.getElem_dropLast, ← List.getD_eq_getElem bs 0 (by omega)]

/-- The last byte, by index. -/
theorem getLast?_any (p : Byte → Bool) (bs : List Byte) (h : bs ≠ []) :
    bs.getLast?.any p = p (bs.getD (bs.length - 1) 0) := by
  have hpos := List.length_pos_iff.mpr h
  rw [List.getLast?_eq_some_getLast h, Option.any_some, List.getLast_eq_getElem,
    List.getD_eq_getElem _ _ (by omega)]

end Sys2Proof.Machine
end

