-- ==== Sys2Proof/Laws/State.lean ====
section
/-! SUPPORT. One lemma per field per update of State: what each shared operation writes and what it
leaves alone. -/

namespace Sys2Proof.Machine

section answerEnc
variable (v : Val) (out : EncOut) (s : State)
@[simp] theorem answerEnc_encIn : (answerEnc v out s).encIn = { inValid := true, value := v } := rfl
@[simp] theorem answerEnc_encOut : (answerEnc v out s).encOut = out := rfl
@[simp] theorem answerEnc_encTaken : (answerEnc v out s).encTaken = s.encTaken ++ [out] := rfl
@[simp] theorem answerEnc_decIn : (answerEnc v out s).decIn = s.decIn := rfl
@[simp] theorem answerEnc_decOut : (answerEnc v out s).decOut = s.decOut := rfl
@[simp] theorem answerEnc_decTaken : (answerEnc v out s).decTaken = s.decTaken := rfl
@[simp] theorem answerEnc_script : (answerEnc v out s).script = s.script := rfl
end answerEnc

section answerDec
variable (len : Len) (data : Bus) (out : DecOut) (s : State)
@[simp] theorem answerDec_decIn :
    (answerDec len data out s).decIn = { inValid := true, len := len, data := data } := rfl
@[simp] theorem answerDec_decOut : (answerDec len data out s).decOut = out := rfl
@[simp] theorem answerDec_decTaken : (answerDec len data out s).decTaken = s.decTaken ++ [out] := rfl
@[simp] theorem answerDec_encIn : (answerDec len data out s).encIn = s.encIn := rfl
@[simp] theorem answerDec_encOut : (answerDec len data out s).encOut = s.encOut := rfl
@[simp] theorem answerDec_encTaken : (answerDec len data out s).encTaken = s.encTaken := rfl
@[simp] theorem answerDec_script : (answerDec len data out s).script = s.script := rfl
end answerDec

section afterFetch
variable (s : State)
@[simp] theorem afterFetch_encIn : (afterFetch s).encIn = (nextPins s).1 := rfl
@[simp] theorem afterFetch_decIn : (afterFetch s).decIn = (nextPins s).2 := rfl
@[simp] theorem afterFetch_encOut : (afterFetch s).encOut = EncOut.idle := rfl
@[simp] theorem afterFetch_decOut : (afterFetch s).decOut = DecOut.idle := rfl
@[simp] theorem afterFetch_script : (afterFetch s).script = s.script.tail := rfl
@[simp] theorem afterFetch_encTaken : (afterFetch s).encTaken = s.encTaken := rfl
@[simp] theorem afterFetch_decTaken : (afterFetch s).decTaken = s.decTaken := rfl
end afterFetch

@[simp] theorem lowered_enc_inValid (p : EncIn) : p.lowered.inValid = false := rfl
@[simp] theorem lowered_enc_value (p : EncIn) : p.lowered.value = p.value := rfl
@[simp] theorem lowered_dec_inValid (p : DecIn) : p.lowered.inValid = false := rfl
@[simp] theorem lowered_dec_len (p : DecIn) : p.lowered.len = p.len := rfl
@[simp] theorem lowered_dec_data (p : DecIn) : p.lowered.data = p.data := rfl

end Sys2Proof.Machine
end

