-- ==== Sys2Proof/Laws/Exec.lean ====
section
/-! SUPPORT. What each instruction and each step can do: the equations that proofs cite in place of
unfolding a meaning, the dispatcher or the step. -/

namespace Sys2Proof.Machine

theorem exec_encode (v : Val) (s : State) :
    exec (.encode v) s = .next (answerEnc v (encAnswer v) s) := rfl

theorem exec_decode (len : Len) (data : Bus) (s : State) :
    exec (.decode len data) s = .next (answerDec len data (decAnswer len data) s) := rfl

theorem exec_vbCont (c : Chunk) (s : State) :
    exec (.vbCont c) s =
      .next (answerDec 1 (packLanes [contByte c]) (decAnswer 1 (packLanes [contByte c])) s) := rfl

theorem exec_vbLast (c : Chunk) (s : State) :
    exec (.vbLast c) s =
      .next (answerDec 1 (packLanes [lastByte c]) (decAnswer 1 (packLanes [lastByte c])) s) := rfl

/-- A varint byte runs as the DEC transaction of its one-byte sequence (log entry 2). -/
theorem exec_decodeByte (b : Byte) (s : State) :
    exec (decodeByte b) s =
      .next (answerDec 1 (packLanes [b]) (decAnswer 1 (packLanes [b])) s) := by
  unfold decodeByte
  split
  · rename_i h; rw [exec_vbCont, contByte_chunkOf h]
  · rename_i h; rw [exec_vbLast, lastByte_chunkOf (by simpa using h)]

/-- A presentation on both ports: ENC's transaction if it is driven, then DEC's if it is driven. -/
theorem step_ports (s : State) (e : EncIn) (d : DecIn) (rest : List Presentation)
    (h : s.script = .ports e d :: rest) :
    step s = .next
      (let s₁ := if e.inValid then answerEnc e.value (encAnswer e.value) (afterFetch s) else afterFetch s
       if d.inValid then answerDec d.len d.data (decAnswer d.len d.data) s₁ else s₁) := by
  have hlen : (d.len ++ d.data).extractLsb' 80 4 = d.len := BitVec.extractLsb'_append_eq_left
  have hdata : (d.len ++ d.data).extractLsb' 0 80 = d.data := BitVec.extractLsb'_append_eq_right
  rcases he : e.inValid <;> rcases hd : d.inValid <;>
    simp [step, requestWords, h, EncIn.requests, DecIn.requests, he, hd, execAll, decodeWord,
      exec_encode, exec_decode, hlen, hdata]

/-- A varint byte on its own. -/
theorem step_varintByte (s : State) (b : Byte) (rest : List Presentation)
    (h : s.script = .varintByte b :: rest) :
    step s = .next (answerDec 1 (packLanes [b]) (decAnswer 1 (packLanes [b])) (afterFetch s)) := by
  simp [step, requestWords, h, execAll, decodeWord, exec_decodeByte]

/-- Nothing presented: both units idle. -/
theorem step_nothing (s : State) (h : s.script = []) : step s = .next (afterFetch s) := by
  simp [step, requestWords, h, execAll]

/-- All that a step does: the request signals of the next presentation, the outputs that each unit
gives for them, the presentation gone from the script, and the responses taken. -/
theorem step_spec (s : State) :
    ∃ t, step s = .next t ∧ t.encIn = (nextPins s).1 ∧ t.decIn = (nextPins s).2 ∧
      t.encOut = encPort (nextPins s).1 ∧ t.decOut = decPort (nextPins s).2 ∧
      t.script = s.script.tail ∧
      t.encTaken = s.encTaken ++ (encRequests (s.script.take 1)).map encAnswer ∧
      t.decTaken = s.decTaken ++ (decRequests (s.script.take 1)).map fun r => decAnswer r.1 r.2 := by
  cases h : s.script with
  | nil =>
    refine ⟨_, step_nothing s h, rfl, rfl, ?_⟩
    simp [nextPins, h, encPort, decPort, encRequests, decRequests]
  | cons p rest =>
    cases p with
    | ports e d =>
      refine ⟨_, step_ports s e d rest h, ?_⟩
      obtain ⟨ev, e⟩ := e
      obtain ⟨dv, dl, d⟩ := d
      cases ev <;> cases dv <;> simp [nextPins, h, encPort, decPort, encRequests, decRequests]
    | varintByte b =>
      refine ⟨_, step_varintByte s b rest h, ?_⟩
      simp [nextPins, h, encPort, decPort, encRequests, decRequests, oneByteRequest]

/-- A run of `k + 1` steps is a step and a run of `k`. -/
theorem core_run_succ (M : Host.Core) (k : Nat) (s t : M.State) (h : M.step s = .next t) :
    M.run (k + 1) s = M.run k t := by
  rw [Host.Core.run, h]

end Sys2Proof.Machine
end

