-- ==== Sys2Proof/Laws/Lanes.lean ====
section
/-! SUPPORT. Byte lanes: what stands in each lane of a packed sequence, and which lanes a DEC request
carries. -/

namespace Sys2Proof.Machine

theorem getLsbD_lane (data : Bus) (i k : Nat) (hk : k < 8) :
    (lane data i).getLsbD k = data.getLsbD (8 * i + k) := by
  simp [lane, hk]

/-- Lane 0 of a packed sequence is its first byte. -/
theorem lane_packLanes_zero (b : Byte) (bs : List Byte) : lane (packLanes (b :: bs)) 0 = b := by
  apply BitVec.eq_of_getLsbD_eq
  intro k hk
  rw [getLsbD_lane _ _ _ hk]
  simp only [packLanes, BitVec.getLsbD_or, BitVec.getLsbD_setWidth, BitVec.getLsbD_shiftLeft]
  simp [hk]
  omega

/-- Lane `i + 1` of a packed sequence is lane `i` of its tail. -/
theorem lane_packLanes_succ (b : Byte) (bs : List Byte) (i : Nat) (hi : i + 1 < 10) :
    lane (packLanes (b :: bs)) (i + 1) = lane (packLanes bs) i := by
  apply BitVec.eq_of_getLsbD_eq
  intro k hk
  rw [getLsbD_lane _ _ _ hk, getLsbD_lane _ _ _ hk]
  have h0 : b.getLsbD (8 * (i + 1) + k) = false := BitVec.getLsbD_of_ge _ _ (by omega)
  have h1 : 8 * (i + 1) + k - 8 = 8 * i + k := by omega
  simp only [packLanes, BitVec.getLsbD_or, BitVec.getLsbD_setWidth, BitVec.getLsbD_shiftLeft, h0, h1]
  simp
  omega

/-- Lane `i` of a packed sequence: byte `i`, or 0x00 when there is none (R44, R67). -/
theorem lane_packLanes (bs : List Byte) (i : Nat) (hi : i < 10) :
    lane (packLanes bs) i = bs.getD i 0 := by
  induction bs generalizing i with
  | nil => simp [packLanes, lane]
  | cons b bs ih =>
    cases i with
    | zero => simp [lane_packLanes_zero]
    | succ i => rw [lane_packLanes_succ b bs i hi, ih i (by omega)]; simp

theorem length_carriedBytes (len : Len) (data : Bus) :
    (carriedBytes len data).length = min len.toNat 10 := by
  simp [carriedBytes]

/-- The bytes a request carries depend only on the lanes below `min(dec_len, 10)` (R68). -/
theorem carriedBytes_congr (len : Len) (d e : Bus)
    (h : ∀ i < min len.toNat 10, lane d i = lane e i) : carriedBytes len d = carriedBytes len e := by
  apply List.map_congr_left
  intro i hi
  exact h i (by simpa using hi)

/-- The carried bytes are the first `min(dec_len, 10)` bytes of any sequence the lanes agree with. -/
theorem carriedBytes_eq_take (len : Len) (data : Bus) (bs : List Byte) (hl : bs.length = len.toNat)
    (h : ∀ i < min len.toNat 10, lane data i = bs.getD i 0) :
    carriedBytes len data = bs.take 10 := by
  apply List.ext_getElem
  · simp [length_carriedBytes, hl, Nat.min_comm]
  · intro i h1 h2
    rw [length_carriedBytes] at h1
    have hb : i < bs.length := by omega
    have := h i h1
    simp only [carriedBytes, List.getElem_map, List.getElem_range, List.getElem_take]
    rw [this, List.getD_eq_getElem _ _ hb]

/-- A length of at most ten fits the four bits of `enc_len` (R67). -/
theorem toNat_lenField (bs : List Byte) (h : bs.length ≤ 10) : (lenField bs).toNat = bs.length := by
  simp only [lenField, BitVec.toNat_ofNat]; omega

/-- A packed sequence of at most ten bytes is carried back whole. -/
theorem carriedBytes_packLanes (bs : List Byte) (h : bs.length ≤ 10) :
    carriedBytes (lenField bs) (packLanes bs) = bs := by
  have hl := toNat_lenField bs h
  rw [carriedBytes_eq_take (lenField bs) (packLanes bs) bs hl.symm, List.take_of_length_le h]
  intro i hi
  exact lane_packLanes bs i (by omega)

/-- The bus read as one number (R44): first byte least significant. -/
theorem packLanes_toNat (b : Byte) (bs : List Byte) (h : bs.length < 10) :
    (packLanes (b :: bs)).toNat = b.toNat + 256 * (packLanes bs).toNat := by
  have hlt : ∀ cs : List Byte, cs.length ≤ 10 → (packLanes cs).toNat < 256 ^ cs.length := by
    intro cs
    induction cs with
    | nil => intro _; simp [packLanes]
    | cons c cs ih =>
      intro hc
      simp only [List.length_cons] at hc
      have ih := ih (by omega)
      have hpow : 256 ^ cs.length ≤ 256 ^ 9 := Nat.pow_le_pow_right (by norm_num) (by omega)
      have hcl := c.isLt
      have e : (packLanes (c :: cs)).toNat = c.toNat ||| (packLanes cs).toNat <<< 8 := by
        simp only [packLanes, BitVec.toNat_or, BitVec.toNat_shiftLeft, BitVec.toNat_setWidth]
        rw [Nat.mod_eq_of_lt (by omega), Nat.mod_eq_of_lt]
        rw [Nat.shiftLeft_eq]; omega
      rw [e, Nat.or_comm, ← Nat.shiftLeft_add_eq_or_of_lt hcl, Nat.shiftLeft_eq, List.length_cons, pow_succ']
      omega
  have hb := b.isLt
  have ht := hlt bs (by omega)
  have hpow : 256 ^ bs.length ≤ 256 ^ 9 := Nat.pow_le_pow_right (by norm_num) (by omega)
  simp only [packLanes, BitVec.toNat_or, BitVec.toNat_shiftLeft, BitVec.toNat_setWidth]
  rw [Nat.mod_eq_of_lt (by omega), Nat.mod_eq_of_lt (by rw [Nat.shiftLeft_eq]; omega), Nat.or_comm,
    ← Nat.shiftLeft_add_eq_or_of_lt hb, Nat.shiftLeft_eq]
  omega

end Sys2Proof.Machine
end

