-- ==== Sys2Proof/Laws/PerInstr.lean ====
section
/-! SUPPORT. Statements made per instruction. -/

/-- The request word written for an instruction is read back as that instruction, with every operand
at every value. -/
def Sys2Proof.Laws.WordRoundTrip.Statement (i : Sys2Proof.Instr) : Prop :=
  Sys2Proof.decodeWord (Sys2Proof.encodeWord i) = i

theorem Sys2Proof.Laws.WordRoundTrip.encode (v : Sys2Proof.Val) : Statement (.encode v) := rfl

theorem Sys2Proof.Laws.WordRoundTrip.decode (len : Sys2Proof.Len) (data : Sys2Proof.Bus) :
    Statement (.decode len data) := by
  have hlen : (len ++ data).extractLsb' 80 4 = len := BitVec.extractLsb'_append_eq_left
  have hdata : (len ++ data).extractLsb' 0 80 = data := BitVec.extractLsb'_append_eq_right
  simp [Statement, Sys2Proof.encodeWord, Sys2Proof.decodeWord, hlen, hdata]

theorem Sys2Proof.Laws.WordRoundTrip.vbCont (c : Sys2Proof.Chunk) : Statement (.vbCont c) :=
  Sys2Proof.decodeByte_contByte c

theorem Sys2Proof.Laws.WordRoundTrip.vbLast (c : Sys2Proof.Chunk) : Statement (.vbLast c) :=
  Sys2Proof.decodeByte_lastByte c
end

