-- ==== Sys2Proof/Tests/Slice0.lean ====
section
/-! SUPPORT. Tests against words and vectors written out in the spec (opcode_table.json,
95_test_vectors.md), the smoke tests of WellFormed, and for each statement with hypotheses a witness
that meets them. -/

open Sys2Proof Sys2Proof.Machine

/-! ### WellFormed: what the checks refuse -/

theorem test_wf_refuses_two_bytes : frameDefect [0x00#8, 0x00#8] = some .noPortOfThisWidth := by decide
theorem test_wf_refuses_nothing_at_all : frameDefect [] = some .noPortOfThisWidth := by decide
theorem test_wf_refuses_set_pad_bits :
    frameDefect [0#8, 0#8, 0#8, 0#8, 0#8, 0#8, 0#8, 0#8, 0#8, 0#8, 0x10#8] = some .padBitsSet := by decide
theorem test_decoder_rejects_by_name : decodeBytes [0x01#8, 0x02#8] = .error .noPortOfThisWidth := by rfl
theorem test_wellFormedSeq_refuses_empty : wellFormedSeq [] = false := by decide
theorem test_wellFormedSeq_refuses_truncated : wellFormedSeq [0x96#8] = false := by decide
theorem test_wellFormedSeq_refuses_interior_terminator : wellFormedSeq [0x01#8, 0x01#8] = false := by decide
theorem test_validSeq_refuses_2_to_the_64 :
    validSeq (List.replicate 9 0x80#8 ++ [0x02#8]) = false := by decide
theorem test_validSeq_refuses_eleven_bytes :
    validSeq (List.replicate 10 0x80#8 ++ [0x00#8]) = false := by decide
theorem test_canonicalSeq_refuses_over_long : canonicalSeq [0x80#8, 0x00#8] = false := by decide

/-! ### Decoding, from the formats of opcode_table.json -/

/-- ENC_REQ: 64 bits of `enc_value` (E34). -/
theorem test_decode_enc_request :
    decodeTableWord 64 0x0123456789ABCDEF = some (.encode 0x0123456789ABCDEF) := by decide
/-- DEC_REQ: `llll` = 0010, lanes 1 and 0 = 0x01, 0x96 (V5). -/
theorem test_decode_dec_request :
    decodeTableWord 88 0x200000000000000000196 = some (.decode 2 0x00000000000000000196) := by decide
/-- VARINT_BYTE `1ccccccc`: 1_1011011 (the first byte of S4). -/
theorem test_decode_vb_cont : decodeTableWord 8 0xDB = some (.vbCont 0b1011011#7) := by decide
/-- VARINT_BYTE `0ccccccc`: 0_1111111 (S5). -/
theorem test_decode_vb_last : decodeTableWord 8 0x7F = some (.vbLast 0b1111111#7) := by decide
theorem test_encode_dec_request :
    encodeBytes (.decode 2 0x00000000000000000196) =
      [0x96#8, 0x01#8, 0#8, 0#8, 0#8, 0#8, 0#8, 0#8, 0#8, 0#8, 0x02#8] := by decide

/-! ### One step from reset -/

/-- The ENC outputs after a step. -/
def encOutAfter (s : State) : Option EncOut :=
  match step s with
  | .next t => some t.encOut
  | .fault _ => none
  | .refused _ => none

/-- The DEC outputs after a step. -/
def decOutAfter (s : State) : Option DecOut :=
  match step s with
  | .next t => some t.decOut
  | .fault _ => none
  | .refused _ => none

/-- The state after reset with one presentation of both ports next. -/
def presenting (e : EncIn) (d : DecIn) : State := { State.reset with script := [.ports e d] }

/-- E34: nine bytes, mixed chunks. -/
theorem test_encode_mixed_chunks :
    encOutAfter (State.reset.withFetchWord 64 0x0123456789ABCDEF) =
      some { outValid := true, len := 9, data := 0x000191D1ACF8CDAF9BEF } := by decide
/-- I6: zero gives one byte. -/
theorem test_encode_zero :
    encOutAfter (State.reset.withFetchWord 64 0) =
      some { outValid := true, len := 1, data := 0 } := by decide
/-- X25: rows 3 and 4 both match, row 3 is first. -/
theorem test_decode_value_overflow_before_interior_terminator :
    decOutAfter (State.reset.withFetchWord 88 0xA7F808080808080808001) =
      some { outValid := true, status := 2, value := 0 } := by decide
/-- I1: lanes 2 to 9 hold 0xFF and are ignored. -/
theorem test_decode_ignores_lanes_from_len :
    decOutAfter (State.reset.withFetchWord 88 0x2FFFFFFFFFFFFFFFF0196) =
      some { outValid := true, status := 0, value := 0x96 } := by decide
/-- X3: a continuation byte alone is truncated. -/
theorem test_vb_cont_is_truncated :
    decOutAfter (State.reset.withFetchWord 8 0x96) =
      some { outValid := true, status := 1, value := 0 } := by decide
/-- V3: the largest one-byte value. -/
theorem test_vb_last_is_its_chunk :
    decOutAfter (State.reset.withFetchWord 8 0x7F) =
      some { outValid := true, status := 0, value := 127 } := by decide
/-- I5: `enc_in_valid = 0` with an operand on the port. -/
theorem test_enc_idle_ignores_its_operand :
    encOutAfter (presenting { inValid := false, value := 0x96 } DecIn.quiet) = some EncOut.idle := by decide
/-- I4: `dec_in_valid = 0` with a request's operands on the port. -/
theorem test_dec_idle_ignores_its_operands :
    decOutAfter (presenting EncIn.quiet { inValid := false, len := 2, data := 0x196 }) =
      some DecOut.idle := by decide
/-- P4: both units in the same instant, the ENC response. -/
theorem test_both_units_at_once_enc :
    encOutAfter (presenting { inValid := true, value := 300 } { inValid := true, len := 2, data := 0x2AC }) =
      some { outValid := true, len := 2, data := 0x000000000000000002AC } := by decide
/-- P4: both units in the same instant, the DEC response. -/
theorem test_both_units_at_once_dec :
    decOutAfter (presenting { inValid := true, value := 300 } { inValid := true, len := 2, data := 0x2AC }) =
      some { outValid := true, status := 0, value := 300 } := by decide

/-! ### The widths are the parameters of R5 and R6 -/

theorem test_word_widths_are_the_parameters :
    (Val = BitVec Config.valueWidth ∧ Byte = BitVec Config.byteWidth ∧ Chunk = BitVec Config.chunkWidth) ∧
    (Bus = BitVec (8 * Config.encLanes) ∧ Bus = BitVec (8 * Config.decLanes) ∧ Bus = BitVec Config.busWidth) ∧
    (Len = BitVec Config.encLenWidth ∧ Len = BitVec Config.decLenWidth ∧ Status = BitVec Config.statusWidth) ∧
    Config.contMask = BitVec.ofNat 8 (2 ^ Config.contBit) :=
  ⟨⟨rfl, rfl, rfl⟩, ⟨rfl, rfl, rfl⟩, ⟨rfl, rfl, rfl⟩, by decide⟩

/-! ### Witnesses: every statement's hypotheses can be met, at the ends of their ranges -/

theorem wit_DecodingTheEncodedBytes : (Instr.decode 15 0xFF).wf = true := by decide
theorem wit_EncodingTheDecodedInstruction :
    decodeBytes [0x80#8] = .ok (.vbCont 0) ∧ decodeBytes (List.replicate 8 0xFF#8) = .ok (.encode (-1)) ∧
      decodeBytes (List.replicate 10 0xFF#8 ++ [0x0F#8]) = .ok (.decode 15 (-1)) := by
  refine ⟨rfl, rfl, rfl⟩
theorem wit_RawBytes :
    (([] : List Byte).length ≠ 1 ∧ ([] : List Byte).length ≠ 8 ∧ ([] : List Byte).length ≠ 11) ∧
    ((List.replicate 11 0x10#8).length = 11 ∧ 16 ≤ ((List.replicate 11 0x10#8).getD 10 0).toNat) ∧
    ((List.replicate 11 0x0F#8).length = 11 ∧ ((List.replicate 11 0x0F#8).getD 10 0).toNat < 16) := by decide
theorem wit_EveryPattern : (0x80#8).getLsbD 7 = true ∧ (0x7F#8).getLsbD 7 = false := by decide
theorem wit_ChunksAreTheValuesBits :
    (9 < (encodeValue (-1)).length) ∧
    decodeSequence (List.replicate 9 0x80#8 ++ [0x01#8]) = .ok (BitVec.ofNat 64 (2 ^ 63)) ∧
    9 < (List.replicate 9 0x80#8 ++ [0x01#8]).length := by decide
theorem wit_Lanes : (List.replicate 10 0xFF#8).length ≤ 10 ∧ ([] : List Byte).length ≤ 10 := by decide
theorem wit_LengthTable :
    (encodeValue 0).length = 1 ∧ (encodeValue 127).length = 1 ∧ (encodeValue 128).length = 2 ∧
    (encodeValue (BitVec.ofNat 64 (2 ^ 63 - 1))).length = 9 ∧
    (encodeValue (BitVec.ofNat 64 (2 ^ 63))).length = 10 ∧ (encodeValue (-1)).length = 10 := by decide
theorem wit_ContinuationBits : 0 < (encodeValue 128).length - 1 ∧ encodeValue 127 = [0x7F#8] := by decide
theorem wit_OneCanonicalSequence :
    canonicalSeq [0x00#8] = true ∧ assembled [0x00#8] = (0 : Val).toNat ∧
    canonicalSeq (List.replicate 9 0xFF#8 ++ [0x01#8]) = true ∧
    assembled (List.replicate 9 0xFF#8 ++ [0x01#8]) = (-1 : Val).toNat ∧
    1 < (encodeValue 128).length := by decide
theorem wit_LoopEndsByItself :
    (encodeValue (-1)).length ≤ 10 ∧ (encodeValue 0).length ≤ 1 ∧ 9 < (encodeValue (-1)).length := by decide
theorem wit_CornerCases : (encodeValue (BitVec.ofNat 64 (2 ^ 63))).length = 10 := by decide
theorem wit_AcceptsExactlyValid :
    decodeSequence [0x80#8, 0x00#8] = .ok 0 ∧ validSeq [0x00#8] = true ∧ assembled [0x00#8] = (0 : Val).toNat := by
  decide
theorem wit_LongerThanTen : 10 < (List.replicate 11 0x80#8).length ∧ 11 ≤ (11 : Len).toNat := by decide
theorem wit_TenthChunk :
    (List.replicate 9 0xFF#8 ++ [0x02#8]).length = 10 ∧
    2 ≤ ((List.replicate 9 0xFF#8 ++ [0x02#8]).getD 9 0 &&& 0x7F#8).toNat ∧
    (List.replicate 9 0xFF#8).length ≤ 9 ∧
    2 ^ 64 - 1 < assembled (List.replicate 9 0x80#8 ++ [0x02#8]) ∧
    decodeSequence (List.replicate 9 0x80#8 ++ [0x02#8]) = .error .overflow ∧
    ¬ (2 ^ 64 - 1 < assembled (List.replicate 9 0xFF#8 ++ [0x01#8])) ∧
    decodeSequence (List.replicate 9 0xFF#8 ++ [0x01#8]) = .ok (-1) := by decide
theorem wit_Truncated :
    1 ≤ ([0x80#8] : List Byte).length ∧ [0x80#8].getD ([0x80#8].length - 1) 0 &&& 0x80#8 ≠ 0#8 ∧
    (List.replicate 9 0x80#8 ++ [0x81#8]).length = 10 ∧
    ¬ (2 ≤ ((List.replicate 9 0x80#8 ++ [0x81#8]).getD 9 0 &&& 0x7F#8).toNat) ∧
    ¬ (∃ i < (List.replicate 9 0x80#8 ++ [0x81#8]).length - 1,
        (List.replicate 9 0x80#8 ++ [0x81#8]).getD i 0 &&& 0x80#8 = 0#8) ∧
    (List.replicate 9 0x80#8 ++ [0x81#8]).getD 9 0 &&& 0x80#8 ≠ 0#8 := by decide
theorem wit_InteriorTerminator :
    (∃ i < [0x01#8, 0x01#8].length - 1, [0x01#8, 0x01#8].getD i 0 &&& 0x80#8 = 0#8) ∧
    (List.replicate 10 0x00#8).length ≤ 10 ∧
    ¬ (2 ≤ ((List.replicate 10 0x00#8).getD 9 0 &&& 0x7F#8).toNat) := by decide
theorem wit_OverLong :
    validSeq [0x81#8, 0x00#8] = true ∧ 1 < [0x81#8, 0x00#8].length ∧
    chunkOf ([0x81#8, 0x00#8].getD ([0x81#8, 0x00#8].length - 1) 0) = 0 ∧
    validSeq (List.replicate 9 0x80#8 ++ [0x00#8]) = true ∧
    decodeSequence [0x81#8, 0x00#8] = .ok 1 ∧ canonicalSeq [0x01#8] = true := by decide
theorem wit_ContinuationBitsAndValue :
    [0x96#8, 0x01#8].map chunkOf = [0x96#8, 0x01#8].map chunkOf ∧ decodeSequence [0x96#8, 0x01#8] = .ok 150 ∧
    [0x16#8, 0x81#8].map chunkOf = [0x96#8, 0x01#8].map chunkOf ∧
    decodeSequence [0x16#8, 0x81#8] = .error .invalidInput ∧
    decodeSequence (List.replicate 9 0xFF#8 ++ [0x01#8]) = .ok (-1) ∧
    (List.replicate 10 0x02#8).map chunkOf = (List.replicate 10 0x82#8).map chunkOf ∧
    decodeSequence (List.replicate 10 0x02#8) = .error .overflow := by decide
theorem wit_OverflowCauses :
    (∃ t, exec (.encode 0) State.reset = .next t) ∧
    decodeSequence (List.replicate 9 0x80#8 ++ [0x82#8]) = .error .overflow := ⟨⟨_, rfl⟩, by decide⟩
theorem wit_InvalidInputCauses :
    (∃ t, exec (.encode 0) State.reset = .next t) ∧
    decodeSequence [0x96#8, 0x01#8, 0x00#8] = .error .invalidInput := ⟨⟨_, rfl⟩, by decide⟩
theorem wit_EncodeAnswers :
    (9 < (encodeValue (-1)).length) ∧ (encodeValue 0).length ≤ 9 ∧
    (∃ t, step State.reset = .next t ∧ t.encIn.inValid = false) := ⟨by decide, by decide, ⟨_, rfl, rfl⟩⟩
theorem wit_PortDecode :
    ([0x96#8, 0x01#8].length = (2 : Len).toNat ∧
      ∀ i < min (2 : Len).toNat 10, [0x96#8, 0x01#8].getD i 0 = lane 0xFF0196 i) ∧
    ((List.replicate 15 0x80#8).length = (15 : Len).toNat ∧
      ∀ i < min (15 : Len).toNat 10, (List.replicate 15 0x80#8).getD i 0 = lane 0x80808080808080808080 i) ∧
    (∃ t, step State.reset = .next t ∧ t.decIn.inValid = false) :=
  ⟨by decide, by decide, ⟨_, rfl, rfl⟩⟩
theorem wit_IgnoredLanes :
    ((2 : Len).toNat ≤ 10 → ∀ i < (2 : Len).toNat, lane 0xFF0196 i = lane 0x0196 i) ∧
    ((11 : Len).toNat ≤ 10 → ∀ i < (11 : Len).toNat, lane 0 i = lane (-1) i) ∧
    (∃ t, exec (.decode 2 0xFF0196) State.reset = .next t) ∧
    (∃ u, exec (.decode 2 0x0196) State.reset = .next u) := ⟨by decide, by decide, ⟨_, rfl⟩, ⟨_, rfl⟩⟩
theorem wit_Frames :
    (∃ t, exec (.encode 1) State.reset = .next t) ∧ (∀ v, Instr.decode 1 1 ≠ .encode v) ∧
    (∃ t, exec (.decode 1 1) State.reset = .next t) ∧ (∀ v, Instr.vbCont 1 ≠ .encode v) ∧
    (∃ t, exec (.vbCont 1) State.reset = .next t) ∧ (∀ v, Instr.vbLast 1 ≠ .encode v) ∧
    (∃ t, exec (.vbLast 1) State.reset = .next t) :=
  ⟨⟨_, rfl⟩, fun _ h => (by cases h), ⟨_, rfl⟩, fun _ h => (by cases h), ⟨_, rfl⟩, fun _ h => (by cases h), ⟨_, rfl⟩⟩
theorem wit_PortRoundTrip : ∃ t, exec (.encode (-1)) State.reset = .next t := ⟨_, rfl⟩
theorem wit_StepRunsTheDecodedInstruction :
    (decodeBytes [0x01#8] = .ok (.vbLast 1) ∧ (Instr.vbLast 1).wf = true) ∧
    (presenting { inValid := true, value := 0 } { inValid := true, len := 0, data := 0 }).script =
      .ports { inValid := true, value := 0 } { inValid := true, len := 0, data := 0 } :: [] :=
  ⟨⟨rfl, rfl⟩, rfl⟩
theorem wit_ValidFollowsValid :
    (presenting { inValid := false, value := 1 } { inValid := true, len := 1, data := 1 }).encTaken =
      (presenting { inValid := false, value := 2 } { inValid := true, len := 1, data := 1 }).encTaken ∧
    (∃ t, step (presenting { inValid := false, value := 1 } { inValid := true, len := 1, data := 1 }) = .next t) ∧
    (∃ u, step (presenting { inValid := false, value := 2 } { inValid := true, len := 1, data := 1 }) = .next u) :=
  ⟨rfl, ⟨_, rfl⟩, ⟨_, rfl⟩⟩
theorem wit_OutputsFollowInputs :
    Coherent State.reset ∧ (∃ t, exec (.encode 0) State.reset = .next t) ∧ (∃ t, step State.reset = .next t) :=
  ⟨⟨rfl, rfl⟩, ⟨_, rfl⟩, ⟨_, rfl⟩⟩
theorem wit_ReservedValues :
    LegalOutputs State.reset ∧ (∃ t, exec (.decode 11 0) State.reset = .next t) ∧ 11 ≤ (11 : Len).toNat :=
  ⟨⟨fun h => (by cases h), fun _ => rfl, fun h => (by cases h), fun _ => rfl⟩, ⟨_, rfl⟩, by decide⟩
theorem wit_Runs :
    encRequests [.ports { inValid := true, value := 1 } { inValid := true, len := 1, data := 1 }] =
      encRequests [.ports EncIn.quiet { inValid := true, len := 1, data := 1 },
        .ports { inValid := true, value := 1 } DecIn.quiet] ∧
    decRequests [.ports { inValid := true, value := 1 } { inValid := true, len := 1, data := 1 }] =
      decRequests [.ports EncIn.quiet { inValid := true, len := 1, data := 1 },
        .ports { inValid := true, value := 1 } DecIn.quiet] ∧
    (∃ t, Sys2Proof.core.run 1 (presenting { inValid := true, value := 1 } DecIn.quiet) = .next t) :=
  ⟨by decide, by decide, ⟨_, rfl⟩⟩
theorem wit_Commute :
    (∀ w, Instr.decode 1 1 ≠ .encode w) ∧
    (presenting { inValid := true, value := 1 } { inValid := true, len := 1, data := 1 }).script =
      [.ports { inValid := true, value := 1 } { inValid := true, len := 1, data := 1 }] :=
  ⟨fun _ h => (by cases h), rfl⟩
theorem wit_ResponsesDependOnTheRequestAlone :
    (∃ t, exec (.vbLast 1) State.reset = .next t) ∧
    (presenting { inValid := true, value := 1 } DecIn.quiet).script.head? =
      some (.ports { inValid := true, value := 1 } DecIn.quiet) ∧
    (∃ t, step (presenting { inValid := true, value := 1 } DecIn.quiet) = .next t) :=
  ⟨⟨_, rfl⟩, rfl, ⟨_, rfl⟩⟩
end

section
/-! PROOFS of the family 20_memory.md: the chunk order of a sequence (R42) and the lane order of a
data bus (R44). -/

namespace Sys2Proof.Machine

/-! ### Chunk order (R42) -/

@[simp] theorem assembled_nil : assembled [] = 0 := rfl

/-- The chunks are the digits of the assembled value in base 2^7, least significant first; beyond the
last byte both sides are 0. -/
theorem chunkOf_getD_toNat (bs : List Byte) (i : Nat) :
    (chunkOf (bs.getD i 0)).toNat = assembled bs / 2 ^ (7 * i) % 2 ^ 7 := by
  induction bs generalizing i with
  | nil => simp [chunkOf]
  | cons b bs ih =>
    have hb := (chunkOf b).isLt
    rw [assembled_cons]
    cases i with
    | zero => simp only [List.getD_cons_zero, Nat.mul_zero, pow_zero]; omega
    | succ i =>
      have hdrop : ((chunkOf b).toNat + 2 ^ 7 * assembled bs) / 2 ^ 7 = assembled bs := by omega
      rw [List.getD_cons_succ, ih, Nat.mul_succ, Nat.add_comm (7 * i), pow_add, ← Nat.div_div_eq_div_mul,
        hdrop]

/-- Chunk `i` of a sequence that assembles `v` is the bits `[7i+6 : 7i]` of `v`. -/
theorem chunkOf_getD_eq_extract {bs : List Byte} {v : Val} (h : assembled bs = v.toNat) (i : Nat) :
    chunkOf (bs.getD i 0) = v.extractLsb' (7 * i) 7 := by
  apply BitVec.eq_of_toNat_eq
  rw [chunkOf_getD_toNat, h, BitVec.extractLsb'_toNat, Nat.shiftRight_eq_div_pow]

/-- The loop of R91 writes out the remaining value when the passes left can hold it. -/
theorem assembled_encodeLoop (p : Nat) (rem : Val) (h : rem.toNat < 2 ^ (7 * p)) :
    assembled (encodeLoop p rem) = rem.toNat := by
  induction p generalizing rem with
  | zero => rw [encodeLoop, assembled_nil]; omega
  | succ p ih =>
    have hchunk : (rem.setWidth 7).toNat = rem.toNat % 2 ^ 7 := BitVec.toNat_setWidth ..
    by_cases hz : rem >>> 7 = 0
    · have hlt := (shift_eq_zero_iff rem).mp hz
      rw [encodeLoop_last p rem hz, assembled_cons, chunkOf_lastByte, hchunk, Nat.mod_eq_of_lt hlt,
        assembled_nil, Nat.mul_zero, Nat.add_zero]
    · have hrest : (rem >>> 7).toNat < 2 ^ (7 * p) := by
        rw [toNat_shift]
        rw [Nat.mul_succ, pow_add] at h
        omega
      rw [encodeLoop_cont p rem hz, assembled_cons, chunkOf_contByte, hchunk, ih _ hrest, toNat_shift]
      omega

/-- An encoding assembles its value: ten passes hold 70 bits. -/
theorem assembled_encodeValue (v : Val) : assembled (encodeValue v) = v.toNat :=
  assembled_encodeLoop 10 v (v.isLt.trans (by norm_num))

/-- The value that the first loop of R112 gathers is the assembled value. -/
theorem toNat_eq_assembled_of_accumulate {bs : List Byte} {v : Val} (hlen : bs.length ≤ 10)
    (h : accumulate 0 0 bs = .ok v) : v.toNat = assembled bs := by
  have hspec := accumulate_spec 0 0 bs (by omega) (by simp)
  split at hspec
  · rw [h] at hspec; cases hspec
  · obtain ⟨w, hw, hsum⟩ := hspec
    obtain rfl : v = w := Verdict.ok.inj (h.symm.trans hw)
    simpa [assembled] using hsum

/-- What an OK verdict of R112 says: no check raised, and the value is the one gathered. -/
theorem decodeSequence_ok {bs : List Byte} {v : Val} (h : decodeSequence bs = .ok v) :
    bs ≠ [] ∧ bs.length ≤ 10 ∧ accumulate 0 0 bs = .ok v ∧
      bs.dropLast.any isLast = false ∧ bs.getLast?.any isCont = false := by
  unfold decodeSequence decodeOfLength at h
  split at h
  · cases h
  split at h
  · cases h
  rename_i hne hlen
  split at h
  · cases h
  rename_i acc hacc
  split at h
  · cases h
  split at h
  · cases h
  rename_i hinner hlast
  cases h
  exact ⟨fun hnil => hne (by simp [hnil]), Nat.not_lt.mp hlen, hacc, by simpa using hinner,
    by simpa using hlast⟩

/-- DECODE accepts a sequence with the value it assembles. -/
theorem assembled_of_decodeSequence {bs : List Byte} {v : Val} (h : decodeSequence bs = .ok v) :
    assembled bs = v.toNat := by
  obtain ⟨-, hlen, hacc, -, -⟩ := decodeSequence_ok h
  exact (toNat_eq_assembled_of_accumulate hlen hacc).symm

/-- Settles O7: encodings and accepted sequences assemble their value, and the chunks of a sequence
are the base-2^7 digits of what it assembles. -/
theorem chunksAreTheValuesBitsLeastSignificantFirst :
    Obligations.ChunksAreTheValuesBitsLeastSignificantFirst := by
  constructor
  · intro v
    have hv := assembled_encodeValue v
    exact ⟨hv, fun i _ => chunkOf_getD_eq_extract hv i⟩
  · intro bs v h
    have hv := assembled_of_decodeSequence h
    exact ⟨hv, fun i _ => chunkOf_getD_eq_extract hv i⟩

/-! ### Lane order (R44) -/

/-- The bus of a sequence that fits it, read as one number. -/
theorem packLanes_toNat_eq_sum (bs : List Byte) (h : bs.length ≤ 10) :
    (packLanes bs).toNat = ∑ i ∈ Finset.range bs.length, (bs.getD i 0).toNat <<< (8 * i) := by
  induction bs with
  | nil => rfl
  | cons b bs ih =>
    rw [List.length_cons] at h
    rw [packLanes_toNat b bs (by omega), ih (by omega), List.length_cons, Finset.sum_range_succ',
      Finset.mul_sum, add_comm]
    congr 1
    apply Finset.sum_congr rfl
    intro i _
    rw [List.getD_cons_succ, Nat.shiftLeft_eq, Nat.shiftLeft_eq, Nat.mul_succ, pow_add]
    ring

/-- Settles O8: lane placement is `lane_packLanes`, the bus as one number is the sum of its lanes,
and the spec's example is the encoding of 150. -/
theorem lanesHoldTheBytesLeastSignificantFirst :
    Obligations.LanesHoldTheBytesLeastSignificantFirst := by
  refine ⟨fun bs h => ⟨packLanes_toNat_eq_sum bs h, fun i hi => ?_⟩, fun _ _ => rfl, by decide⟩
  exact lane_packLanes bs i (by omega)

end Sys2Proof.Machine
end

section
/-! PROOFS of the family 30_encoding.md: no reserved value is ever produced (R75), and the
well-formed sequences as a grammar of byte classes (R62). -/

namespace Sys2Proof.Machine

/-! ### Legal responses (R67, R70, R75) -/

/-- The clauses of `LegalOutputs` about unit ENC. -/
def LegalEncOut (o : EncOut) : Prop :=
  (o.outValid = true → 1 ≤ o.len.toNat ∧ o.len.toNat ≤ 10 ∧
    ∀ i, o.len.toNat ≤ i → i ≤ 9 → lane o.data i = 0x00#8) ∧
  (o.outValid = false → o = EncOut.idle)

/-- The clauses of `LegalOutputs` about unit DEC. -/
def LegalDecOut (o : DecOut) : Prop :=
  (o.outValid = true → o.status ≠ 3 ∧ (o.status ≠ 0 → o.value = 0)) ∧
  (o.outValid = false → o = DecOut.idle)

theorem legalOutputs_iff (s : State) :
    LegalOutputs s ↔ LegalEncOut s.encOut ∧ LegalDecOut s.decOut := by
  rw [LegalOutputs, LegalEncOut, LegalDecOut, and_assoc]

theorem legalEncOut_idle : LegalEncOut EncOut.idle := ⟨fun h => (by cases h), fun _ => rfl⟩

theorem legalDecOut_idle : LegalDecOut DecOut.idle := ⟨fun h => (by cases h), fun _ => rfl⟩

/-- Each pass of R91 emits at most one byte. -/
theorem length_encodeLoop_le (p : Nat) (rem : Val) : (encodeLoop p rem).length ≤ p := by
  induction p generalizing rem with
  | zero => simp [encodeLoop]
  | succ p ih =>
    by_cases h : rem >>> 7 = 0
    · simp [encodeLoop_last p rem h]
    · simpa [encodeLoop_cont p rem h] using ih _

theorem length_encodeValue_le (v : Val) : (encodeValue v).length ≤ 10 := length_encodeLoop_le 10 v

theorem length_encodeValue_pos (v : Val) : 0 < (encodeValue v).length :=
  List.length_pos_iff.mpr (encodeLoop_ne_nil 9 v)

/-- A response of ENC has a length of 1 to 10, and no byte of the encoding stands in a later lane. -/
theorem legalEncOut_encAnswer (v : Val) : LegalEncOut (encAnswer v) := by
  have hlen : (encAnswer v).len.toNat = (encodeValue v).length :=
    toNat_lenField _ (length_encodeValue_le v)
  refine ⟨fun _ => ?_, fun h => (by cases h)⟩
  rw [hlen]
  refine ⟨length_encodeValue_pos v, length_encodeValue_le v, fun i hi h9 => ?_⟩
  calc lane (encAnswer v).data i = (encodeValue v).getD i 0 := lane_packLanes _ i (by omega)
    _ = 0 := List.getD_eq_default _ _ hi

/-- The three status codes of R70, and the filler 0 beside the two error codes. -/
theorem legalDecOut_deliver (r : Verdict) : LegalDecOut (deliver r) := by
  cases r with
  | ok v =>
    have hok : statusOk ≠ 3 := by decide
    exact ⟨fun _ => ⟨hok, fun h => absurd rfl h⟩, fun h => (by cases h)⟩
  | error k =>
    have hk : statusOf k ≠ 3 := by cases k <;> decide
    exact ⟨fun _ => ⟨hk, fun _ => rfl⟩, fun h => (by cases h)⟩

theorem legalDecOut_decAnswer (len : Len) (data : Bus) : LegalDecOut (decAnswer len data) :=
  legalDecOut_deliver _

theorem legalEncOut_encPort (p : EncIn) : LegalEncOut (encPort p) := by
  unfold encPort
  split
  · exact legalEncOut_encAnswer p.value
  · exact legalEncOut_idle

theorem legalDecOut_decPort (p : DecIn) : LegalDecOut (decPort p) := by
  unfold decPort
  split
  · exact legalDecOut_decAnswer p.len p.data
  · exact legalDecOut_idle

/-- What an instruction can do: it is one ENC transaction or one DEC transaction. -/
theorem exec_next_cases {i : Instr} {s t : State} (h : exec i s = .next t) :
    (∃ v, t = answerEnc v (encAnswer v) s) ∨
      ∃ len data, t = answerDec len data (decAnswer len data) s := by
  cases i with
  | encode v =>
    rw [exec_encode] at h
    exact .inl ⟨v, (Host.Outcome.next.inj h).symm⟩
  | decode len data =>
    rw [exec_decode] at h
    exact .inr ⟨len, data, (Host.Outcome.next.inj h).symm⟩
  | vbCont c =>
    rw [exec_vbCont] at h
    exact .inr ⟨1, packLanes [contByte c], (Host.Outcome.next.inj h).symm⟩
  | vbLast c =>
    rw [exec_vbLast] at h
    exact .inr ⟨1, packLanes [lastByte c], (Host.Outcome.next.inj h).symm⟩

/-- Every step makes the outputs legal, whatever they were: they are those of the two ports. -/
theorem legalOutputs_of_step {s t : State} (h : step s = .next t) : LegalOutputs t := by
  obtain ⟨u, hu, -, -, henc, hdec, -⟩ := step_spec s
  obtain rfl : t = u := Host.Outcome.next.inj (h.symm.trans hu)
  rw [legalOutputs_iff, henc, hdec]
  exact ⟨legalEncOut_encPort _, legalDecOut_decPort _⟩

/-- Every instruction keeps the outputs legal: it writes a legal response on one port and leaves the
other port alone. -/
theorem exec_keeps_legalOutputs {i : Instr} {s t : State} (hs : LegalOutputs s)
    (h : exec i s = .next t) : LegalOutputs t := by
  obtain ⟨henc, hdec⟩ := (legalOutputs_iff s).mp hs
  rw [legalOutputs_iff]
  obtain ⟨v, rfl⟩ | ⟨len, data, rfl⟩ := exec_next_cases h
  · exact ⟨legalEncOut_encAnswer v, hdec⟩
  · exact ⟨henc, legalDecOut_decAnswer len data⟩

/-- A length above 10 is answered `Overflow`, whatever the lanes hold (R75, R113). -/
theorem decAnswer_of_len_gt_ten (len : Len) (data : Bus) (h : 11 ≤ len.toNat) :
    decAnswer len data = raiseKind .overflow := by
  have hne : len.toNat ≠ 0 := by omega
  have hgt : Config.maxLen < len.toNat := h
  rw [decAnswer, decodeOfLength, if_neg hne, if_pos hgt, deliver]

/-- Settles O38: both ports give legal outputs for every input, so a step establishes them and an
instruction, which answers on one port, keeps them. -/
theorem reservedValuesAreNeverProduced : Obligations.ReservedValuesAreNeverProduced := by
  refine ⟨fun _ _ => legalOutputs_of_step, fun _ _ _ => exec_keeps_legalOutputs, ?_⟩
  intro len data s hlen
  refine ⟨_, exec_decode len data s, ?_⟩
  rw [answerDec_decOut, decAnswer_of_len_gt_ten len data hlen]
  exact ⟨rfl, rfl⟩

/-! ### Well-formed sequences (R62) -/

theorem isCont_eq_not_isLast (b : Byte) : isCont b = !isLast b := by
  rw [isLast_eq_not_isCont, Bool.not_not]

/-- Every byte but the last a continuation byte, by index. -/
theorem dropLast_all_isCont (bs : List Byte) :
    bs.dropLast.all isCont = true ↔ ∀ i < bs.length - 1, isCont (bs.getD i 0) = true := by
  simpa [isCont_eq_not_isLast] using not_congr (dropLast_any_isLast bs)

/-- R62 by index. -/
theorem wellFormedSeq_iff_getD (bs : List Byte) :
    wellFormedSeq bs = true ↔ bs ≠ [] ∧ (∀ i < bs.length - 1, isCont (bs.getD i 0) = true) ∧
      isLast (bs.getD (bs.length - 1) 0) = true := by
  rw [wellFormedSeq, Bool.and_eq_true, dropLast_all_isCont]
  by_cases h : bs = []
  · simp [h]
  · simp [getLast?_any isLast bs h, h]

/-- R62 of a sequence with its last byte split off. -/
theorem wellFormedSeq_concat (bs : List Byte) (b : Byte) :
    wellFormedSeq (bs ++ [b]) = (bs.all isCont && isLast b) := by
  simp [wellFormedSeq]

theorem map_contByte_chunkOf {bs : List Byte} (h : bs.all isCont = true) :
    (bs.map chunkOf).map contByte = bs := by
  rw [List.all_eq_true] at h
  have hid : ∀ b ∈ bs, (contByte ∘ chunkOf) b = id b := fun b hb => contByte_chunkOf (h b hb)
  rw [List.map_map, List.map_congr_left hid, List.map_id]

/-- The well-formed sequences are the bytes of VB.CONT* VB.LAST. -/
theorem wellFormedSeq_iff_eq_bytes (bs : List Byte) :
    wellFormedSeq bs = true ↔
      ∃ (cs : List Chunk) (c : Chunk), bs = cs.map contByte ++ [lastByte c] := by
  constructor
  · intro h
    obtain rfl | ⟨init, b, rfl⟩ := List.eq_nil_or_concat bs
    · simp [wellFormedSeq] at h
    · rw [List.concat_eq_append, wellFormedSeq_concat, Bool.and_eq_true] at h
      obtain ⟨hinit, hb⟩ := h
      have hb' : isCont b = false := by rw [isCont_eq_not_isLast, hb]; rfl
      refine ⟨init.map chunkOf, chunkOf b, ?_⟩
      rw [map_contByte_chunkOf hinit, lastByte_chunkOf hb', List.concat_eq_append]
  · rintro ⟨cs, c, rfl⟩
    simp [wellFormedSeq_concat, isCont_contByte, isLast_lastByte]

/-- The class and the chunk of a byte determine it (R61): the request word of the decoded byte is the
byte. -/
theorem encodeWord_decodeByte (b : Byte) : encodeWord (decodeByte b) = .varintByte b := by
  unfold decodeByte
  split
  · rename_i h; rw [encodeWord, contByte_chunkOf h]
  · rename_i h; rw [encodeWord, lastByte_chunkOf (by simpa using h)]

theorem decodeByte_injective : Function.Injective decodeByte := by
  intro a b h
  have hword := congrArg encodeWord h
  rw [encodeWord_decodeByte, encodeWord_decodeByte] at hword
  exact RequestWord.varintByte.inj hword

/-- The bytes written for VB.CONT* VB.LAST are read back as it. -/
theorem map_decodeByte_bytes (cs : List Chunk) (c : Chunk) :
    (cs.map contByte ++ [lastByte c]).map decodeByte = cs.map Instr.vbCont ++ [Instr.vbLast c] := by
  simp [decodeByte_contByte, decodeByte_lastByte]

/-- Only the bytes written for VB.CONT* VB.LAST are read as it. -/
theorem map_decodeByte_eq_iff (bs : List Byte) (cs : List Chunk) (c : Chunk) :
    bs.map decodeByte = cs.map Instr.vbCont ++ [Instr.vbLast c] ↔
      bs = cs.map contByte ++ [lastByte c] := by
  rw [← map_decodeByte_bytes, decodeByte_injective.list_map.eq_iff]

/-- Settles O6: the index form is R62 byte by byte, and decoding a byte to its class and chunk loses
nothing, so the grammar of the decoded classes is the grammar of the bytes. -/
theorem wellFormedSequencesAreTheGrammarOfByteClasses :
    Obligations.WellFormedSequencesAreTheGrammarOfByteClasses := by
  intro bs
  constructor
  · simpa only [isCont, isLast, beq_iff_eq] using wellFormedSeq_iff_getD bs
  · simp only [decodeWord, map_decodeByte_eq_iff]
    exact wellFormedSeq_iff_eq_bytes bs

end Sys2Proof.Machine
end

section
/-! PROOFS of the family 40_encode.md: DECODE of ENCODE is the identity (R101), the length of an
encoding (R94), its continuation bits (R95), and its being the one canonical sequence of the value
(R93). -/

namespace Sys2Proof.Machine

/-! ### ENCODE without its pass counter (R91, R99) -/

/-- A value of at most one chunk is one terminal byte. -/
theorem encodeValue_last {v : Val} (h : v.toNat < 2 ^ 7) :
    encodeValue v = [lastByte (v.setWidth 7)] :=
  encodeLoop_last 9 v ((shift_eq_zero_iff v).mpr h)

/-- A further pass changes nothing once the passes can hold the remaining value. -/
theorem encodeLoop_one_more (p : Nat) (rem : Val) (h : rem.toNat < 2 ^ (7 * (p + 1))) :
    encodeLoop (p + 2) rem = encodeLoop (p + 1) rem := by
  induction p generalizing rem with
  | zero =>
    have hz := (shift_eq_zero_iff rem).mpr h
    rw [encodeLoop_last _ rem hz, encodeLoop_last _ rem hz]
  | succ p ih =>
    by_cases hz : rem >>> 7 = 0
    · rw [encodeLoop_last _ rem hz, encodeLoop_last _ rem hz]
    · have hrest : (rem >>> 7).toNat < 2 ^ (7 * (p + 1)) := by
        rw [toNat_shift]
        rw [Nat.mul_succ, pow_add] at h
        omega
      rw [encodeLoop_cont _ rem hz, encodeLoop_cont _ rem hz, ih _ hrest]

/-- A larger value is a continuation byte and the encoding of what remains. -/
theorem encodeValue_cont {v : Val} (h : 2 ^ 7 ≤ v.toNat) :
    encodeValue v = contByte (v.setWidth 7) :: encodeValue (v >>> 7) := by
  have hz : v >>> 7 ≠ 0 := fun hz => absurd ((shift_eq_zero_iff v).mp hz) (by omega)
  have hrest : (v >>> 7).toNat < 2 ^ (7 * (8 + 1)) := by
    have hv := v.isLt
    rw [toNat_shift]
    omega
  calc encodeValue v = contByte (v.setWidth 7) :: encodeLoop 9 (v >>> 7) := encodeLoop_cont 9 v hz
    _ = contByte (v.setWidth 7) :: encodeValue (v >>> 7) := by
      rw [← encodeLoop_one_more 8 _ hrest, encodeValue]

/-- Induction along the loop of R91: each pass takes seven bits off the value. -/
theorem chunk_induction {motive : Val → Prop} (last : ∀ v : Val, v.toNat < 2 ^ 7 → motive v)
    (cont : ∀ v : Val, 2 ^ 7 ≤ v.toNat → motive (v >>> 7) → motive v) (v : Val) : motive v :=
  if h : v.toNat < 2 ^ 7 then last v h
  else cont v (Nat.not_lt.mp h) (chunk_induction last cont (v >>> 7))
termination_by v.toNat
decreasing_by rw [toNat_shift]; omega

/-! ### The sequences of the grammar VB.CONT* VB.LAST (R62) -/

/-- The bytes of VB.CONT* VB.LAST with the given chunks. -/
def classBytes (cs : List Chunk) (c : Chunk) : List Byte := cs.map contByte ++ [lastByte c]

/-- The well-formed sequences are the `classBytes`. -/
theorem wellFormedSeq_iff_classBytes (bs : List Byte) :
    wellFormedSeq bs = true ↔ ∃ cs c, bs = classBytes cs c :=
  wellFormedSeq_iff_eq_bytes bs

theorem classBytes_nil (c : Chunk) : classBytes [] c = [lastByte c] := rfl

theorem classBytes_cons (d : Chunk) (cs : List Chunk) (c : Chunk) :
    classBytes (d :: cs) c = contByte d :: classBytes cs c := rfl

theorem assembled_classBytes_nil (c : Chunk) : assembled (classBytes [] c) = c.toNat := by
  rw [classBytes_nil, assembled_cons, chunkOf_lastByte, assembled_nil, Nat.mul_zero, Nat.add_zero]

theorem assembled_classBytes_cons (d : Chunk) (cs : List Chunk) (c : Chunk) :
    assembled (classBytes (d :: cs) c) = d.toNat + 2 ^ 7 * assembled (classBytes cs c) := by
  rw [classBytes_cons, assembled_cons, chunkOf_contByte]

/-- A last chunk that is not zero makes the assembled value positive. -/
theorem assembled_classBytes_pos (cs : List Chunk) {c : Chunk} (hc : c ≠ 0) :
    0 < assembled (classBytes cs c) := by
  induction cs with
  | nil =>
    rw [assembled_classBytes_nil]
    exact Nat.pos_of_ne_zero fun h => hc (BitVec.eq_of_toNat_eq h)
  | cons d cs ih =>
    rw [assembled_classBytes_cons]
    omega

/-- A sequence of the grammar without a superfluous last chunk is what ENCODE gives for the value it
assembles. -/
theorem classBytes_eq_encodeValue (cs : List Chunk) {c : Chunk} {v : Val} (hc : cs = [] ∨ c ≠ 0)
    (hv : assembled (classBytes cs c) = v.toNat) : classBytes cs c = encodeValue v := by
  induction cs generalizing v with
  | nil =>
    rw [assembled_classBytes_nil] at hv
    have hlt : v.toNat < 2 ^ 7 := hv ▸ c.isLt
    have hchunk : c = v.setWidth 7 := by
      apply BitVec.eq_of_toNat_eq
      rw [BitVec.toNat_setWidth, Nat.mod_eq_of_lt hlt, hv]
    rw [encodeValue_last hlt, classBytes_nil, hchunk]
  | cons d cs ih =>
    have hd := d.isLt
    have hc : c ≠ 0 := hc.resolve_left (List.cons_ne_nil d cs)
    have hpos := assembled_classBytes_pos cs hc
    rw [assembled_classBytes_cons] at hv
    have hchunk : d = v.setWidth 7 := by
      apply BitVec.eq_of_toNat_eq
      rw [BitVec.toNat_setWidth]
      omega
    have hrest : assembled (classBytes cs c) = (v >>> 7).toNat := by
      rw [toNat_shift]
      omega
    rw [encodeValue_cont (by omega), classBytes_cons, ih (.inr hc) hrest, hchunk]

/-- Every encoding is a sequence of the grammar, and only the encoding of 0 has the last chunk 0. -/
theorem encodeValue_eq_classBytes (v : Val) :
    ∃ cs c, encodeValue v = classBytes cs c ∧ (v = 0 → cs = []) ∧ (v ≠ 0 → c ≠ 0) := by
  induction v using chunk_induction with
  | last v h =>
    refine ⟨[], v.setWidth 7, encodeValue_last h, fun _ => rfl, fun hv hc => hv ?_⟩
    have hc := congrArg BitVec.toNat hc
    rw [BitVec.toNat_setWidth, Nat.mod_eq_of_lt h] at hc
    exact BitVec.eq_of_toNat_eq hc
  | cont v h ih =>
    obtain ⟨cs, c, heq, -, hc⟩ := ih
    have hv : v ≠ 0 := by rintro rfl; simp at h
    have hrest : v >>> 7 ≠ 0 := fun hz => absurd ((shift_eq_zero_iff v).mp hz) (by omega)
    refine ⟨v.setWidth 7 :: cs, c, ?_, fun h0 => absurd h0 hv, fun _ => hc hrest⟩
    rw [encodeValue_cont h, heq, classBytes_cons]

theorem wellFormedSeq_encodeValue (v : Val) : wellFormedSeq (encodeValue v) = true := by
  obtain ⟨cs, c, heq, -⟩ := encodeValue_eq_classBytes v
  exact (wellFormedSeq_iff_classBytes _).mpr ⟨cs, c, heq⟩

/-! ### Valid and canonical sequences (R63, R64) -/

theorem validSeq_iff (bs : List Byte) :
    validSeq bs = true ↔ wellFormedSeq bs = true ∧ bs.length ≤ 10 ∧ assembled bs ≤ 2 ^ 64 - 1 := by
  simp [validSeq, and_assoc]

theorem validSeq_of_canonicalSeq {bs : List Byte} (h : canonicalSeq bs = true) :
    validSeq bs = true := by
  rw [canonicalSeq, Bool.and_eq_true] at h
  exact h.left

/-- R64 by index. -/
theorem canonicalSeq_iff_getD {bs : List Byte} (hne : bs ≠ []) :
    canonicalSeq bs = true ↔
      validSeq bs = true ∧ (bs.length = 1 ∨ chunkOf (bs.getD (bs.length - 1) 0) ≠ 0) := by
  simp [canonicalSeq, getLast?_any _ bs hne]

/-- R64 of a sequence of the grammar. -/
theorem canonicalSeq_classBytes (cs : List Chunk) (c : Chunk) :
    canonicalSeq (classBytes cs c) = true ↔
      validSeq (classBytes cs c) = true ∧ (cs = [] ∨ c ≠ 0) := by
  simp [canonicalSeq, classBytes, chunkOf_lastByte]

theorem validSeq_encodeValue (v : Val) : validSeq (encodeValue v) = true := by
  have hv := v.isLt
  rw [validSeq_iff, assembled_encodeValue]
  exact ⟨wellFormedSeq_encodeValue v, length_encodeValue_le v, by omega⟩

theorem canonicalSeq_encodeValue (v : Val) : canonicalSeq (encodeValue v) = true := by
  have hvalid := validSeq_encodeValue v
  obtain ⟨cs, c, heq, hzero, hpos⟩ := encodeValue_eq_classBytes v
  rw [heq] at hvalid ⊢
  exact (canonicalSeq_classBytes cs c).mpr ⟨hvalid, (em (v = 0)).imp hzero hpos⟩

/-- The canonical sequence of a value is unique: it is the encoding. -/
theorem eq_encodeValue_of_canonicalSeq {bs : List Byte} {v : Val} (h : canonicalSeq bs = true)
    (hv : assembled bs = v.toNat) : bs = encodeValue v := by
  obtain ⟨hwf, -⟩ := (validSeq_iff bs).mp (validSeq_of_canonicalSeq h)
  obtain ⟨cs, c, rfl⟩ := (wellFormedSeq_iff_classBytes bs).mp hwf
  obtain ⟨-, hc⟩ := (canonicalSeq_classBytes cs c).mp h
  exact classBytes_eq_encodeValue cs hc hv

/-! ### The round trip (R101) -/

/-- The first loop of R112 gathers a 64-bit value without `Overflow`: the tenth chunk is the value's
bit 63. -/
theorem accumulate_eq_ok {bs : List Byte} {v : Val} (hlen : bs.length ≤ 10)
    (hv : assembled bs = v.toNat) : accumulate 0 0 bs = .ok v := by
  have hspec := accumulate_spec 0 0 bs (by omega) (by simp)
  split at hspec
  case isTrue hov =>
    obtain ⟨-, -, htenth⟩ := hov
    have hlt := v.isLt
    rw [chunkOf_getD_toNat, hv] at htenth
    omega
  case isFalse =>
    obtain ⟨w, hw, hsum⟩ := hspec
    have hwv : w = v := by
      apply BitVec.eq_of_toNat_eq
      simpa [assembled, ← hv] using hsum
    rw [hw, hwv]

/-- The two checks of R112 on the continuation bits pass for a well-formed sequence. -/
theorem continuation_checks_of_wellFormedSeq {bs : List Byte} (h : wellFormedSeq bs = true) :
    bs ≠ [] ∧ bs.dropLast.any isLast = false ∧ bs.getLast?.any isCont = false := by
  obtain ⟨cs, c, rfl⟩ := (wellFormedSeq_iff_classBytes bs).mp h
  simp [classBytes, isLast_contByte, isCont_lastByte]

/-- DECODE accepts a valid sequence with the value it assembles. -/
theorem decodeSequence_of_validSeq {bs : List Byte} {v : Val} (h : validSeq bs = true)
    (hv : assembled bs = v.toNat) : decodeSequence bs = .ok v := by
  obtain ⟨hwf, hlen, -⟩ := (validSeq_iff bs).mp h
  obtain ⟨hne, hinner, hlast⟩ := continuation_checks_of_wellFormedSeq hwf
  have hpos : bs.length ≠ 0 := fun h0 => hne (List.length_eq_zero_iff.mp h0)
  have hmax : ¬ Config.maxLen < bs.length := Nat.not_lt.mpr hlen
  rw [decodeSequence, decodeOfLength, if_neg hpos, if_neg hmax, accumulate_eq_ok hlen hv]
  simp [hinner, hlast]

/-- Settles O16: an encoding is a valid sequence and assembles its value, and DECODE answers OK with
the assembled value to every valid sequence. -/
theorem decodeOfEncodeIsTheValue : Obligations.DecodeOfEncodeIsTheValue := fun v =>
  decodeSequence_of_validSeq (validSeq_encodeValue v) (assembled_encodeValue v)

/-! ### The length of an encoding (R94) -/

/-- `n` bytes suffice exactly for the values of at most `7n` bits (R66). -/
theorem length_encodeValue_le_iff (v : Val) (n : Nat) :
    (encodeValue v).length ≤ n + 1 ↔ v.toNat < 2 ^ (7 * (n + 1)) := by
  induction v using chunk_induction generalizing n with
  | last v h =>
    have hle : 2 ^ 7 ≤ 2 ^ (7 * (n + 1)) := Nat.pow_le_pow_right (by norm_num) (by omega)
    simp only [encodeValue_last h, List.length_singleton]
    omega
  | cont v h ih =>
    rw [encodeValue_cont h, List.length_cons, Nat.add_le_add_iff_right]
    cases n with
    | zero =>
      have hpos := length_encodeValue_pos (v >>> 7)
      omega
    | succ n =>
      rw [ih, toNat_shift, Nat.div_lt_iff_lt_mul (by norm_num), ← pow_add]
      rfl

/-- `bit_length(v)` is the least number of bits that hold `v` (R10). -/
theorem bitLength_le_iff (v : Val) (k : Nat) : bitLength v ≤ k ↔ v.toNat < 2 ^ k := by
  unfold bitLength
  split
  case isTrue h => simp [h]
  case isFalse h =>
    have hne : v.toNat ≠ 0 := fun h0 => h (BitVec.eq_of_toNat_eq h0)
    rw [Nat.succ_le_iff, Nat.log2_lt hne]

/-- `ceil(b / 7)` over the rationals is at most `n` when `b` is at most `7n`. -/
theorem ceil_div_seven_le_iff (b n : Nat) : Nat.ceil ((b : ℚ) / 7) ≤ n ↔ b ≤ 7 * n := by
  rw [Nat.ceil_le, div_le_iff₀ (by norm_num), mul_comm]
  exact_mod_cast Iff.rfl

/-- Settles O10: both sides are the least `n`, at least 1, with the value below `2^(7n)`. -/
theorem encodedLengthIsTheCanonicalLength : Obligations.EncodedLengthIsTheCanonicalLength := by
  intro v
  refine ⟨eq_of_forall_ge_iff fun n => ?_, length_encodeValue_pos v, length_encodeValue_le v⟩
  cases n with
  | zero =>
    have hpos := length_encodeValue_pos v
    omega
  | succ n =>
    rw [length_encodeValue_le_iff, max_le_iff, ceil_div_seven_le_iff, bitLength_le_iff]
    exact (and_iff_right (by omega)).symm

/-! ### The continuation bits (R95) -/

theorem toNat_le_of_isLast {b : Byte} (h : isLast b = true) : b.toNat ≤ 0x7F := by
  revert b; decide

/-- Settles O12: an encoding is well-formed, which is the law byte by byte. -/
theorem continuationBitsOfTheEncoding : Obligations.ContinuationBitsOfTheEncoding := by
  intro v
  have hwf := wellFormedSeq_encodeValue v
  obtain ⟨-, hinner, hlast⟩ := (wellFormedSeq_iff_getD _).mp hwf
  refine ⟨fun i hi => ?_, ?_, hwf, fun b hb => ?_⟩
  · rw [← isCont_eq_bit, hinner i hi]
  · rw [← isCont_eq_bit, isCont_eq_not_isLast, hlast]
    rfl
  · rw [hb] at hlast
    exact toNat_le_of_isLast hlast

/-! ### The one canonical sequence (R93) -/

/-- Settles O13: ENCODE gives a canonical sequence, a canonical sequence is what ENCODE gives for the
value it assembles, and the clauses on the last byte are R64 and R95 there. -/
theorem encodeGivesTheOneCanonicalSequence : Obligations.EncodeGivesTheOneCanonicalSequence := by
  intro v
  have hcanon := canonicalSeq_encodeValue v
  obtain ⟨hne, -, hlast⟩ := (wellFormedSeq_iff_getD _).mp (wellFormedSeq_encodeValue v)
  refine ⟨⟨hcanon, assembled_encodeValue v⟩, fun bs => eq_encodeValue_of_canonicalSeq, ?_, ?_⟩
  · intro hlen
    obtain ⟨-, hchunk⟩ := (canonicalSeq_iff_getD hne).mp hcanon
    exact hchunk.resolve_left (by omega)
  · intro h80
    rw [h80] at hlast
    exact absurd hlast (by decide)

end Sys2Proof.Machine
end

section
/-! PROOFS of the family 41_decode.md: one lemma per row of R111 about the loops and checks of R112
(R113, R115, R117, R122), the row that decides (R111), and what the continuation bits can change
(R120). -/

namespace Sys2Proof.Machine

/-! ### The conditions of the rows of R111 -/

/-- Row 3 of R111: ten bytes, and the tenth chunk does not fit above bit 63 (R114). -/
abbrev TenthChunkOverflows (bs : List Byte) : Prop :=
  bs.length = 10 ∧ 2 ≤ (bs.getD 9 0 &&& 0x7F#8).toNat

/-- Row 4 of R111: a byte before the last has bit 7 clear (R117). -/
abbrev HasInteriorTerminator (bs : List Byte) : Prop :=
  ∃ i < bs.length - 1, bs.getD i 0 &&& 0x80#8 = 0#8

/-- Row 5 of R111: the last byte has bit 7 set (R115). -/
abbrev IsTruncated (bs : List Byte) : Prop :=
  bs.getD (bs.length - 1) 0 &&& 0x80#8 ≠ 0#8

theorem tenthChunkOverflows_iff (bs : List Byte) :
    TenthChunkOverflows bs ↔ bs.length = 10 ∧ 2 ≤ (chunkOf (bs.getD 9 0)).toNat := by
  rw [chunkOf_toNat]

/-- The check of R112 for an interior terminator is row 4. -/
theorem interior_check_iff (bs : List Byte) :
    bs.dropLast.any isLast = true ↔ HasInteriorTerminator bs := by
  simpa only [isLast, beq_iff_eq] using dropLast_any_isLast bs

/-- The check of R112 for truncation is row 5. -/
theorem truncation_check_iff {bs : List Byte} (hne : bs ≠ []) :
    bs.getLast?.any isCont = true ↔ IsTruncated bs := by
  rw [getLast?_any isCont bs hne, isCont_eq_not_isLast, Bool.not_eq_true', isLast, beq_eq_false_iff_ne]

/-! ### The first loop of R112 -/

/-- The first loop raises `Overflow` in row 3. -/
theorem accumulate_of_tenthChunkOverflows {bs : List Byte} (h : TenthChunkOverflows bs) :
    accumulate 0 0 bs = .error .overflow := by
  obtain ⟨hlen, hchunk⟩ := (tenthChunkOverflows_iff bs).mp h
  have hspec := accumulate_spec 0 0 bs (by omega) (by simp)
  rwa [if_pos ⟨by omega, by omega, hchunk⟩] at hspec

/-- Outside row 3 the first loop gathers the assembled value, nothing clamped or wrapped (R114). -/
theorem accumulate_of_not_tenthChunkOverflows {bs : List Byte} (hlen : bs.length ≤ 10)
    (h : ¬ TenthChunkOverflows bs) :
    ∃ v, accumulate 0 0 bs = .ok v ∧ v.toNat = assembled bs := by
  have hspec := accumulate_spec 0 0 bs (by omega) (by simp)
  split at hspec
  case isTrue hov =>
    obtain ⟨hgt, -, hchunk⟩ := hov
    exact absurd ((tenthChunkOverflows_iff bs).mpr ⟨by omega, hchunk⟩) h
  case isFalse =>
    obtain ⟨v, hv, -⟩ := hspec
    exact ⟨v, hv, toNat_eq_assembled_of_accumulate hlen hv⟩

/-! ### DECODE, one lemma per row -/

/-- Row 1 (R122). -/
theorem decodeSequence_nil : decodeSequence [] = .error .invalidInput := rfl

/-- Row 2 (R113): no byte is examined. -/
theorem decodeSequence_of_length_gt_ten {bs : List Byte} (h : 10 < bs.length) :
    decodeSequence bs = .error .overflow := by
  have hne : bs.length ≠ 0 := by omega
  rw [decodeSequence, decodeOfLength, if_neg hne, if_pos h]

/-- Row 3 (R114). -/
theorem decodeSequence_of_tenthChunkOverflows {bs : List Byte} (h : TenthChunkOverflows bs) :
    decodeSequence bs = .error .overflow := by
  have hlen : bs.length = 10 := h.left
  have hne : bs.length ≠ 0 := by omega
  have hmax : ¬ Config.maxLen < bs.length := Nat.not_lt.mpr hlen.le
  rw [decodeSequence, decodeOfLength, if_neg hne, if_neg hmax, accumulate_of_tenthChunkOverflows h]

/-- Rows 4 to 6, when none of the first three matches: the two checks on the continuation bits, and
the assembled value if both pass. -/
theorem decodeSequence_of_no_overflow {bs : List Byte} (hne : bs ≠ []) (hlen : bs.length ≤ 10)
    (h : ¬ TenthChunkOverflows bs) :
    ∃ v, v.toNat = assembled bs ∧
      decodeSequence bs = if HasInteriorTerminator bs ∨ IsTruncated bs
        then .error .invalidInput else .ok v := by
  obtain ⟨v, hacc, hv⟩ := accumulate_of_not_tenthChunkOverflows hlen h
  have hpos : bs.length ≠ 0 := fun h0 => hne (List.length_eq_zero_iff.mp h0)
  have hmax : ¬ Config.maxLen < bs.length := Nat.not_lt.mpr hlen
  refine ⟨v, hv, ?_⟩
  rw [decodeSequence, decodeOfLength, if_neg hpos, if_neg hmax, hacc]
  simp only [interior_check_iff, truncation_check_iff hne, ite_or]

/-- Row 4 (R117). -/
theorem decodeSequence_of_hasInteriorTerminator {bs : List Byte} (hlen : bs.length ≤ 10)
    (h3 : ¬ TenthChunkOverflows bs) (h4 : HasInteriorTerminator bs) :
    decodeSequence bs = .error .invalidInput := by
  have hne : bs ≠ [] := by
    rintro rfl
    obtain ⟨i, hi, -⟩ := h4
    exact absurd hi (Nat.not_lt_zero i)
  obtain ⟨v, -, hdec⟩ := decodeSequence_of_no_overflow hne hlen h3
  rw [hdec, if_pos (.inl h4)]

/-- Row 5 (R115); row 4 gives the same kind. -/
theorem decodeSequence_of_isTruncated {bs : List Byte} (hne : bs ≠ []) (hlen : bs.length ≤ 10)
    (h3 : ¬ TenthChunkOverflows bs) (h5 : IsTruncated bs) :
    decodeSequence bs = .error .invalidInput := by
  obtain ⟨v, -, hdec⟩ := decodeSequence_of_no_overflow hne hlen h3
  rw [hdec, if_pos (.inr h5)]

/-- Row 6: OK with the assembled value. -/
theorem decodeSequence_of_no_error {bs : List Byte} (hne : bs ≠ []) (hlen : bs.length ≤ 10)
    (h3 : ¬ TenthChunkOverflows bs) (h4 : ¬ HasInteriorTerminator bs) (h5 : ¬ IsTruncated bs) :
    ∃ v, decodeSequence bs = .ok v ∧ v.toNat = assembled bs := by
  obtain ⟨v, hv, hdec⟩ := decodeSequence_of_no_overflow hne hlen h3
  rw [if_neg (not_or.mpr ⟨h4, h5⟩)] at hdec
  exact ⟨v, hdec, hv⟩

/-- Settles O17: the rows of R111 in their order, each by the lemma of that row. -/
theorem decodeGivesTheFirstMatchingRow : Obligations.DecodeGivesTheFirstMatchingRow := by
  intro bs
  simp only [firstMatchingRow]
  split_ifs with h1 h2 h3 h4 h5
  · rw [List.length_eq_zero_iff.mp h1, decodeSequence_nil, Verdict.asNat]
  · rw [decodeSequence_of_length_gt_ten h2, Verdict.asNat]
  · rw [decodeSequence_of_tenthChunkOverflows h3, Verdict.asNat]
  · rw [decodeSequence_of_hasInteriorTerminator (by omega) h3 h4, Verdict.asNat]
  · have hne : bs ≠ [] := fun h => h1 (List.length_eq_zero_iff.mpr h)
    rw [decodeSequence_of_isTruncated hne (by omega) h3 h5, Verdict.asNat]
  · have hne : bs ≠ [] := fun h => h1 (List.length_eq_zero_iff.mpr h)
    obtain ⟨v, hdec, hv⟩ := decodeSequence_of_no_error hne (by omega) h3 h4 h5
    rw [hdec, Verdict.asNat, hv]

/-! ### Single rows (R113, R115, R117, R122) -/

/-- Settles O21: row 5 of R111, and the source's example by evaluation. -/
theorem truncatedSequencesAreInvalidInput : Obligations.TruncatedSequencesAreInvalidInput := by
  refine ⟨fun bs hpos hlen h3 _ h5 => ?_, by decide⟩
  exact decodeSequence_of_isTruncated (List.length_pos_iff.mp hpos) hlen h3 h5

/-- An accepted sequence has passed the check for an interior terminator. -/
theorem not_hasInteriorTerminator_of_ok {bs : List Byte} {v : Val}
    (h : decodeSequence bs = .ok v) : ¬ HasInteriorTerminator bs := by
  obtain ⟨-, -, -, hinner, -⟩ := decodeSequence_ok h
  rw [← interior_check_iff, hinner]
  exact Bool.false_ne_true

/-- Settles O22: row 4 of R111 when row 3 does not match, and OK only after the check of row 4. -/
theorem interiorTerminatorsAreNeverAccepted : Obligations.InteriorTerminatorsAreNeverAccepted := by
  intro bs _ hlen h4
  exact ⟨fun h3 => decodeSequence_of_hasInteriorTerminator hlen h3 h4,
    fun _ hok => not_hasInteriorTerminator_of_ok hok h4⟩

/-- Settles O19: row 2 of R111, and on the port the answer to a length above 10. -/
theorem longerThanTenBytesIsOverflow : Obligations.LongerThanTenBytesIsOverflow := by
  refine ⟨fun _ => decodeSequence_of_length_gt_ten, fun len data s hlen => ?_⟩
  refine ⟨_, exec_decode len data s, ?_⟩
  rw [answerDec_decOut, decAnswer_of_len_gt_ten len data hlen]
  rfl

/-- The length 0 is answered `InvalidInput`, whatever the lanes hold (R122). -/
theorem decAnswer_of_len_zero (data : Bus) : decAnswer 0 data = raiseKind .invalidInput := by
  have hzero : (0 : Len).toNat = 0 := rfl
  rw [decAnswer, decodeOfLength, if_pos hzero, deliver]

/-- Settles O30: row 1 of R111, and on the port the answer to the length 0. -/
theorem emptySequenceIsInvalidInput : Obligations.EmptySequenceIsInvalidInput := by
  refine ⟨decodeSequence_nil, fun data s => ⟨_, exec_decode 0 data s, ?_⟩⟩
  rw [answerDec_decOut, decAnswer_of_len_zero]
  rfl

/-! ### What the continuation bits can change (R120) -/

/-- The assembled value is a function of the chunks. -/
theorem assembled_congr_chunks {bs cs : List Byte} (h : bs.map chunkOf = cs.map chunkOf) :
    assembled bs = assembled cs := by
  induction bs generalizing cs with
  | nil => rw [List.map_eq_nil_iff.mp h.symm]
  | cons b bs ih =>
    cases cs with
    | nil => cases h
    | cons c cs =>
      obtain ⟨hhead, htail⟩ := List.cons.inj h
      rw [assembled_cons, assembled_cons, hhead, ih htail]

/-- DECODE raises `Overflow` exactly in rows 2 and 3. -/
theorem decodeSequence_eq_overflow_iff (bs : List Byte) :
    decodeSequence bs = .error .overflow ↔ 10 < bs.length ∨ TenthChunkOverflows bs := by
  constructor
  · intro hdec
    by_contra h
    obtain ⟨h2, h3⟩ := not_or.mp h
    have hne : bs ≠ [] := by rintro rfl; cases hdec
    obtain ⟨v, -, hv⟩ := decodeSequence_of_no_overflow hne (Nat.not_lt.mp h2) h3
    rw [hdec] at hv
    split at hv <;> cases hv
  · rintro (h2 | h3)
    · exact decodeSequence_of_length_gt_ten h2
    · exact decodeSequence_of_tenthChunkOverflows h3

/-- Row 3 is a condition on the chunks alone. -/
theorem tenthChunkOverflows_congr_chunks {bs cs : List Byte}
    (h : bs.map chunkOf = cs.map chunkOf) : TenthChunkOverflows bs ↔ TenthChunkOverflows cs := by
  have hlen : bs.length = cs.length := by simpa using congrArg List.length h
  have htenth : (chunkOf (bs.getD 9 0)).toNat = (chunkOf (cs.getD 9 0)).toNat := by
    rw [chunkOf_getD_toNat, chunkOf_getD_toNat, assembled_congr_chunks h]
  rw [tenthChunkOverflows_iff, tenthChunkOverflows_iff, hlen, htenth]

/-- Settles O24: an accepted value is the assembled value, which is the sum of the chunks, and both
`Overflow` rows are conditions on the chunks. -/
theorem continuationBitsDoNotReachTheValue : Obligations.ContinuationBitsDoNotReachTheValue := by
  refine ⟨fun bs v hok => ?_, fun bs cs h => ⟨fun v w hv hw => ?_, ?_⟩⟩
  · rw [← assembled_of_decodeSequence hok, assembled_eq_sum]
  · apply BitVec.eq_of_toNat_eq
    rw [← assembled_of_decodeSequence hv, ← assembled_of_decodeSequence hw, assembled_congr_chunks h]
  · have hlen : bs.length = cs.length := by simpa using congrArg List.length h
    rw [decodeSequence_eq_overflow_iff, decodeSequence_eq_overflow_iff, hlen,
      tenthChunkOverflows_congr_chunks h]

end Sys2Proof.Machine
end

section
/-! PROOFS of the family 60_exceptions.md: the causes of the two error kinds (R141, R142, R145), read
off the rows of R111. -/

namespace Sys2Proof.Machine

/-- DECODE raises `InvalidInput` exactly in row 1 and, when neither row 2 nor row 3 matches (R145),
in rows 4 and 5. -/
theorem decodeSequence_eq_invalidInput_iff (bs : List Byte) :
    decodeSequence bs = .error .invalidInput ↔
      bs = [] ∨ bs.length ≤ 10 ∧ ¬ TenthChunkOverflows bs ∧
        (IsTruncated bs ∨ HasInteriorTerminator bs) := by
  constructor
  · intro hdec
    have hov : ¬ (10 < bs.length ∨ TenthChunkOverflows bs) := by
      rw [← decodeSequence_eq_overflow_iff, hdec]
      simp
    obtain ⟨h2, h3⟩ := not_or.mp hov
    have hlen : bs.length ≤ 10 := Nat.not_lt.mp h2
    refine or_iff_not_imp_left.mpr fun hne => ⟨hlen, h3, ?_⟩
    by_contra hcont
    obtain ⟨h5, h4⟩ := not_or.mp hcont
    obtain ⟨v, hok, -⟩ := decodeSequence_of_no_error hne hlen h3 h4 h5
    rw [hdec] at hok
    cases hok
  · rintro (rfl | ⟨hlen, h3, h5 | h4⟩)
    · exact decodeSequence_nil
    · have hne : bs ≠ [] := by rintro rfl; exact h5 rfl
      exact decodeSequence_of_isTruncated hne hlen h3 h5
    · exact decodeSequence_of_hasInteriorTerminator hlen h3 h4

/-- ENCODE drives no DEC response signal, so it raises neither kind. -/
theorem exec_encode_keeps_decOut {v : Val} {s t : State} (h : exec (.encode v) s = .next t) :
    t.decOut = s.decOut := by
  rw [exec_encode] at h
  rw [← Host.Outcome.next.inj h, answerEnc_decOut]

/-- Settles O25: the `Overflow` rows of R111, and the frame of ENCODE. -/
theorem overflowHasExactlyTwoCauses : Obligations.OverflowHasExactlyTwoCauses :=
  ⟨decodeSequence_eq_overflow_iff, fun _ _ _ => exec_encode_keeps_decOut⟩

/-- Settles O26: the `InvalidInput` rows of R111 behind its `Overflow` rows, and the frame of
ENCODE. -/
theorem invalidInputHasExactlyThreeCauses : Obligations.InvalidInputHasExactlyThreeCauses :=
  ⟨decodeSequence_eq_invalidInput_iff, fun _ _ _ => exec_encode_keeps_decOut⟩

end Sys2Proof.Machine
end

section
/-! PROOFS of the family 'other', the raw words: the two directions of the round trip between bytes and
instructions, the rejections by name, and the classes of a port's patterns (R60, R61, R68, R69, R72;
log entry 1). -/

namespace Sys2Proof

/-! ### The bytes of a number -/

/-- The bytes are the digits of their number in base 256; beyond the last byte both sides are 0. -/
theorem getD_toNat_eq_digit (bytes : List Byte) (i : Nat) :
    (bytes.getD i 0).toNat = natOfBytes bytes / 256 ^ i % 256 := by
  induction bytes generalizing i with
  | nil => simp [natOfBytes]
  | cons b bytes ih =>
    have hb := b.isLt
    rw [natOfBytes]
    cases i with
    | zero => simp only [List.getD_cons_zero, pow_zero]; omega
    | succ i =>
      have hdrop : (b.toNat + 256 * natOfBytes bytes) / 256 = natOfBytes bytes := by omega
      rw [List.getD_cons_succ, ih, pow_succ', ← Nat.div_div_eq_div_mul, hdrop]

/-- Eleven bytes hold an 84-bit number exactly when the padding bits are clear. -/
theorem padding_clear_iff {bytes : List Byte} (h : bytes.length = 11) :
    (bytes.getD 10 0).toNat < 16 ↔ natOfBytes bytes < 2 ^ 84 := by
  have hlt := natOfBytes_lt bytes
  rw [h] at hlt
  rw [getD_toNat_eq_digit]
  omega

/-- The padding test of `frameDefect` is a bound on the byte. -/
theorem and_padMask_eq_zero_iff (b : Byte) : b &&& 0xF0#8 = 0#8 ↔ b.toNat < 16 := by
  revert b; decide

/-! ### Request words and their bytes, one lemma per length -/

theorem requestOfBytes_of_length_eight {bytes : List Byte} (h : bytes.length = 8) :
    requestOfBytes bytes = .ok (.encReq (BitVec.ofNat 64 (natOfBytes bytes))) := by
  simp [requestOfBytes, frameDefect, h]

theorem requestOfBytes_of_length_one {bytes : List Byte} (h : bytes.length = 1) :
    requestOfBytes bytes = .ok (.varintByte (BitVec.ofNat 8 (natOfBytes bytes))) := by
  simp [requestOfBytes, frameDefect, h]

theorem requestOfBytes_of_padding_clear {bytes : List Byte} (h : bytes.length = 11)
    (hpad : (bytes.getD 10 0).toNat < 16) :
    requestOfBytes bytes = .ok (.decReq (BitVec.ofNat 84 (natOfBytes bytes))) := by
  have hmask := (and_padMask_eq_zero_iff _).mpr hpad
  simp only [requestOfBytes, frameDefect, h, hmask]
  rfl

theorem requestOfBytes_of_padding_set {bytes : List Byte} (h : bytes.length = 11)
    (hpad : 16 ≤ (bytes.getD 10 0).toNat) : requestOfBytes bytes = .error .padBitsSet := by
  have hmask : bytes.getD 10 0 &&& 0xF0#8 ≠ 0#8 :=
    mt (and_padMask_eq_zero_iff _).mp (Nat.not_lt.mpr hpad)
  simp only [requestOfBytes, frameDefect, h, if_neg hmask]
  rfl

theorem requestOfBytes_of_no_port {bytes : List Byte}
    (h : bytes.length ≠ 1 ∧ bytes.length ≠ 8 ∧ bytes.length ≠ 11) :
    requestOfBytes bytes = .error .noPortOfThisWidth := by
  obtain ⟨h1, h8, h11⟩ := h
  simp [requestOfBytes, frameDefect, h1, h8, h11]

/-- A number written out in as many bytes as it fits is read back. -/
theorem ofNat_natOfBytes_bytesOfNat {n : Nat} (k : Nat) (w : BitVec n) (h : 2 ^ n ≤ 256 ^ k) :
    BitVec.ofNat n (natOfBytes (bytesOfNat k w.toNat)) = w := by
  rw [natOfBytes_bytesOfNat, Nat.mod_eq_of_lt (w.isLt.trans_le h), BitVec.ofNat_toNat,
    BitVec.setWidth_eq]

/-- Bytes that hold an `n`-bit number are written out again. -/
theorem bytesOfNat_toNat_ofNat {n k : Nat} {bytes : List Byte} (hlen : bytes.length = k)
    (h : natOfBytes bytes < 2 ^ n) :
    bytesOfNat k (BitVec.ofNat n (natOfBytes bytes)).toNat = bytes := by
  rw [BitVec.toNat_ofNat, Nat.mod_eq_of_lt h, ← hlen, bytesOfNat_natOfBytes]

/-- The bytes written for a request word are read back as it. -/
theorem requestOfBytes_bytesOfRequest (w : RequestWord) :
    requestOfBytes (bytesOfRequest w) = .ok w := by
  cases w with
  | encReq bits =>
    rw [bytesOfRequest, requestOfBytes_of_length_eight (length_bytesOfNat 8 _),
      ofNat_natOfBytes_bytesOfNat 8 bits (by norm_num)]
  | decReq bits =>
    have hlen := length_bytesOfNat 11 bits.toNat
    have hfit : natOfBytes (bytesOfNat 11 bits.toNat) < 2 ^ 84 := by
      rw [natOfBytes_bytesOfNat]
      exact (Nat.mod_le _ _).trans_lt bits.isLt
    rw [bytesOfRequest, requestOfBytes_of_padding_clear hlen ((padding_clear_iff hlen).mpr hfit),
      ofNat_natOfBytes_bytesOfNat 11 bits (by norm_num)]
  | varintByte bits =>
    rw [bytesOfRequest, requestOfBytes_of_length_one (length_bytesOfNat 1 _),
      ofNat_natOfBytes_bytesOfNat 1 bits (by norm_num)]

/-- The five kinds of byte lists: the three that a port takes, and the two defects. -/
theorem bytes_length_cases (bytes : List Byte) :
    bytes.length = 8 ∨ bytes.length = 1 ∨
      (bytes.length = 11 ∧ (bytes.getD 10 0).toNat < 16) ∨
      (bytes.length = 11 ∧ 16 ≤ (bytes.getD 10 0).toNat) ∨
      (bytes.length ≠ 1 ∧ bytes.length ≠ 8 ∧ bytes.length ≠ 11) := by
  omega

/-- Bytes that are read as a request word are the bytes written for it. -/
theorem bytesOfRequest_of_requestOfBytes {bytes : List Byte} {w : RequestWord}
    (h : requestOfBytes bytes = .ok w) : bytesOfRequest w = bytes := by
  have hlt := natOfBytes_lt bytes
  obtain h8 | h1 | ⟨h11, hpad⟩ | ⟨h11, hpad⟩ | hno := bytes_length_cases bytes
  · rw [requestOfBytes_of_length_eight h8] at h
    obtain rfl := Except.ok.inj h
    rw [h8] at hlt
    exact bytesOfNat_toNat_ofNat h8 hlt
  · rw [requestOfBytes_of_length_one h1] at h
    obtain rfl := Except.ok.inj h
    rw [h1] at hlt
    exact bytesOfNat_toNat_ofNat h1 hlt
  · rw [requestOfBytes_of_padding_clear h11 hpad] at h
    obtain rfl := Except.ok.inj h
    exact bytesOfNat_toNat_ofNat h11 ((padding_clear_iff h11).mp hpad)
  · rw [requestOfBytes_of_padding_set h11 hpad] at h
    cases h
  · rw [requestOfBytes_of_no_port hno] at h
    cases h

/-! ### Request words and instructions -/

theorem decodeWord_encodeWord (i : Instr) : decodeWord (encodeWord i) = i := by
  cases i with
  | encode v => exact Laws.WordRoundTrip.encode v
  | decode len data => exact Laws.WordRoundTrip.decode len data
  | vbCont c => exact Laws.WordRoundTrip.vbCont c
  | vbLast c => exact Laws.WordRoundTrip.vbLast c

theorem encodeWord_decodeWord (w : RequestWord) : encodeWord (decodeWord w) = w := by
  cases w with
  | encReq bits => rfl
  | decReq bits =>
    have hjoin : bits.extractLsb' 80 4 ++ bits.extractLsb' 0 80 = bits :=
      (BitVec.extractLsb'_append_extractLsb'_eq_extractLsb' rfl).trans BitVec.extractLsb'_eq_self
    rw [decodeWord, encodeWord, hjoin]
  | varintByte bits => exact Machine.encodeWord_decodeByte bits

/-! ### The decoder of raw bytes -/

theorem decodeBytes_of_request {bytes : List Byte} {w : RequestWord}
    (h : requestOfBytes bytes = .ok w) : decodeBytes bytes = .ok (decodeWord w) := by
  rw [decodeBytes, h]

theorem decodeBytes_of_defect {bytes : List Byte} {d : FrameDefect}
    (h : requestOfBytes bytes = .error d) : decodeBytes bytes = .error d := by
  rw [decodeBytes, h]

/-- The instruction that bytes are read as is the one of their request word. -/
theorem exists_request_of_decodeBytes {bytes : List Byte} {i : Instr} (h : decodeBytes bytes = .ok i) :
    ∃ w, requestOfBytes bytes = .ok w ∧ decodeWord w = i := by
  cases hreq : requestOfBytes bytes with
  | error d => rw [decodeBytes_of_defect hreq] at h; cases h
  | ok w => rw [decodeBytes_of_request hreq] at h; exact ⟨w, rfl, Except.ok.inj h⟩

/-- Settles O2: bytes to request word to instruction, each step undone by the one before. -/
theorem decodingTheEncodedBytesGivesTheInstruction :
    Obligations.DecodingTheEncodedBytesGivesTheInstruction := by
  intro i _
  rw [encodeBytes, decodeBytes_of_request (requestOfBytes_bytesOfRequest _), decodeWord_encodeWord]

/-- Settles O3: the same two steps the other way round. -/
theorem encodingTheDecodedInstructionGivesTheBytes :
    Obligations.EncodingTheDecodedInstructionGivesTheBytes := by
  intro bytes i h
  obtain ⟨w, hreq, rfl⟩ := exists_request_of_decodeBytes h
  rw [encodeBytes, encodeWord_decodeWord, bytesOfRequest_of_requestOfBytes hreq]

/-- Settles O4: the verdict on each of the five kinds of byte lists. -/
theorem rawBytesAreRejectedByTheNameOfTheirDefect :
    Obligations.RawBytesAreRejectedByTheNameOfTheirDefect := by
  intro bytes
  obtain h8 | h1 | ⟨h11, hpad⟩ | ⟨h11, hpad⟩ | hno := bytes_length_cases bytes
  · simp [decodeBytes_of_request (requestOfBytes_of_length_eight h8), h8]
  · simp [decodeBytes_of_request (requestOfBytes_of_length_one h1), h1]
  · rw [decodeBytes_of_request (requestOfBytes_of_padding_clear h11 hpad)]
    simpa [h11] using hpad
  · rw [decodeBytes_of_defect (requestOfBytes_of_padding_set h11 hpad)]
    simpa [h11] using hpad
  · simp [decodeBytes_of_defect (requestOfBytes_of_no_port hno), hno]

/-! ### The patterns of each port -/

/-- The chunk of a byte is its other seven bits (R60). -/
theorem chunkOf_eq_extractLsb' (b : Byte) : chunkOf b = b.extractLsb' 0 7 := by
  revert b; decide

theorem decodeByte_of_bit_set {b : Byte} (h : b.getLsbD 7 = true) :
    decodeByte b = .vbCont (b.extractLsb' 0 7) := by
  rw [decodeByte, isCont_eq_bit, if_pos h, chunkOf_eq_extractLsb']

theorem decodeByte_of_bit_clear {b : Byte} (h : b.getLsbD 7 = false) :
    decodeByte b = .vbLast (b.extractLsb' 0 7) := by
  rw [decodeByte, isCont_eq_bit, h, if_neg Bool.false_ne_true, chunkOf_eq_extractLsb']

/-- Settles O5: the formats of the two ports, and the class of a byte. -/
theorem everyPatternOfAPortIsThatPortsOperation :
    Obligations.EveryPatternOfAPortIsThatPortsOperation :=
  ⟨fun _ => rfl, Laws.WordRoundTrip.decode,
    fun _ => ⟨decodeByte_of_bit_set, decodeByte_of_bit_clear⟩⟩

/-- Settles O1, by evaluating the decoder on the four words. -/
theorem writtenOutWordsDecode : Obligations.WrittenOutWordsDecode := by
  refine ⟨?_, ?_, ?_, ?_⟩ <;> decide

end Sys2Proof
end

section
/-! PROOFS of the family 'other', the two functions: the closed form and the lengths of encodings (R66,
R92, R99, R102), the sequences DECODE accepts (R63), the value overflow (R114) and over-long input
(R116). -/

namespace Sys2Proof.Machine

/-! ### The closed form (R92) -/

/-- The length of an encoding is the least `n`, at least 1, with `bit_length` at most `7n` (R94). -/
theorem length_encodeValue (v : Val) : (encodeValue v).length = canonicalLength v := by
  refine eq_of_forall_ge_iff fun n => ?_
  cases n with
  | zero =>
    have hpos := length_encodeValue_pos v
    rw [canonicalLength]
    omega
  | succ n =>
    rw [length_encodeValue_le_iff, ← bitLength_le_iff, canonicalLength]
    omega

/-- Byte `i` of the closed form: chunk `i` of the value, as a continuation byte before the last
place and a terminal byte in it. -/
theorem closedByte_eq (v : Val) (n i : Nat) :
    closedByte v n i = if i < n - 1 then contByte (v.extractLsb' (7 * i) 7)
      else lastByte (v.extractLsb' (7 * i) 7) := by
  have hchunk : ((v >>> (7 * i)) &&& 0x7F#64).setWidth 8 = (v.extractLsb' (7 * i) 7).setWidth 8 := by
    apply BitVec.eq_of_toNat_eq
    simp only [BitVec.toNat_setWidth, BitVec.toNat_and, BitVec.toNat_ushiftRight,
      BitVec.extractLsb'_toNat]
    rw [show (0x7F#64).toNat = 2 ^ 7 - 1 from rfl, Nat.and_two_pow_sub_one_eq_mod]
  rw [closedByte, hchunk]
  split
  · rfl
  · exact BitVec.or_zero

/-- Settles O9: both sequences have the canonical length, and byte `i` of the encoding has chunk `i`
of the value (R42) and the continuation bit of its place (R95). -/
theorem encodeLoopComputesTheClosedForm : Obligations.EncodeLoopComputesTheClosedForm := by
  intro v
  have hlen := length_encodeValue v
  obtain ⟨-, hinner, hlast⟩ := (wellFormedSeq_iff_getD _).mp (wellFormedSeq_encodeValue v)
  apply List.ext_getElem
  · simp [encodeClosedForm, hlen]
  · intro i hi _
    have hget := List.getD_eq_getElem (encodeValue v) 0 hi
    simp only [encodeClosedForm, List.getElem_map, List.getElem_range]
    rw [closedByte_eq, ← hlen, ← chunkOf_getD_eq_extract (assembled_encodeValue v) i, ← hget]
    split
    case isTrue h => rw [contByte_chunkOf (hinner i h)]
    case isFalse h =>
      obtain rfl : i = (encodeValue v).length - 1 := by omega
      rw [lastByte_chunkOf (by rw [isCont_eq_not_isLast, hlast]; rfl)]

/-! ### The lengths of encodings (R66, R99) -/

/-- Settles O11: `n` bytes suffice and `n - 1` do not. -/
theorem encodedLengthTable : Obligations.EncodedLengthTable := by
  intro v n hn _
  have hv := v.isLt
  obtain ⟨m, rfl⟩ : ∃ m, n = m + 1 := ⟨n - 1, by omega⟩
  have hpow : 0 < 2 ^ (7 * (m + 1)) := by positivity
  have hle := length_encodeValue_le_iff v m
  cases m with
  | zero =>
    have hpos := length_encodeValue_pos v
    rw [if_pos rfl]
    omega
  | succ m =>
    have hlt := length_encodeValue_le_iff v m
    rw [if_neg (by omega), Nat.add_sub_cancel]
    omega

/-- Fewer passes cut the output, and more change nothing (R99). -/
theorem encodeLoop_eq_take (passes : Nat) (v : Val) :
    encodeLoop passes v = (encodeValue v).take passes := by
  induction v using chunk_induction generalizing passes with
  | last v h =>
    cases passes with
    | zero => rfl
    | succ p => rw [encodeValue_last h, encodeLoop_last p v ((shift_eq_zero_iff v).mpr h)]; simp
  | cont v h ih =>
    cases passes with
    | zero => rfl
    | succ p =>
      have hz : v >>> 7 ≠ 0 := mt (shift_eq_zero_iff v).mp (Nat.not_lt.mpr h)
      rw [encodeValue_cont h, encodeLoop_cont p v hz, ih, List.take_succ_cons]

/-- Settles O14: the loop of so many passes gives so many bytes of the whole output. -/
theorem encodeLoopEndsByItselfWithinTenPasses :
    Obligations.EncodeLoopEndsByItselfWithinTenPasses := by
  intro v passes
  rw [encodeLoop_eq_take]
  refine ⟨List.take_of_length_le, fun h => ?_, length_encodeValue_le v⟩
  rw [List.length_take, min_eq_left h.le]

/-! ### The corner cases of ENCODE (R102) -/

/-- Zero chunks below a last chunk shift it. -/
theorem assembled_classBytes_replicate_zero (k : Nat) (c : Chunk) :
    assembled (classBytes (List.replicate k 0) c) = c.toNat * 2 ^ (7 * k) := by
  induction k with
  | zero => simp [assembled_classBytes_nil]
  | succ k ih =>
    have hzero : (0 : Chunk).toNat = 0 := rfl
    rw [List.replicate_succ, assembled_classBytes_cons, ih, hzero]
    ring

/-- Full chunks below a last chunk make the value one less than the next multiple. -/
theorem assembled_classBytes_replicate_full (k : Nat) (c : Chunk) :
    assembled (classBytes (List.replicate k 0x7F) c) + 1 = (c.toNat + 1) * 2 ^ (7 * k) := by
  induction k with
  | zero => simp [assembled_classBytes_nil]
  | succ k ih =>
    have hfull : (0x7F : Chunk).toNat = 127 := rfl
    calc assembled (classBytes (List.replicate (k + 1) 0x7F) c) + 1
        = 2 ^ 7 * (assembled (classBytes (List.replicate k 0x7F) c) + 1) := by
          rw [List.replicate_succ, assembled_classBytes_cons, hfull]; ring
      _ = (c.toNat + 1) * 2 ^ (7 * (k + 1)) := by rw [ih]; ring

theorem classBytes_replicate (k : Nat) (d c : Chunk) :
    classBytes (List.replicate k d) c = List.replicate k (contByte d) ++ [lastByte c] := by
  rw [classBytes, List.map_replicate]

theorem encodeValue_two_pow {k : Nat} (hk : k ≤ 9) :
    encodeValue (BitVec.ofNat 64 (2 ^ (7 * k))) = List.replicate k 0x80#8 ++ [0x01#8] := by
  have hlt : 2 ^ (7 * k) < 2 ^ 64 := Nat.pow_lt_pow_right (by norm_num) (by omega)
  have hv : assembled (classBytes (List.replicate k 0) 1) = (BitVec.ofNat 64 (2 ^ (7 * k))).toNat := by
    rw [assembled_classBytes_replicate_zero, BitVec.toNat_ofNat, Nat.mod_eq_of_lt hlt]
    simp
  rw [← classBytes_eq_encodeValue _ (.inr (by decide)) hv, classBytes_replicate]
  rfl

theorem encodeValue_two_pow_sub_one {k : Nat} (hpos : 1 ≤ k) (hk : k ≤ 9) :
    encodeValue (BitVec.ofNat 64 (2 ^ (7 * k) - 1)) = List.replicate (k - 1) 0xFF#8 ++ [0x7F#8] := by
  have hlt : 2 ^ (7 * k) < 2 ^ 64 := Nat.pow_lt_pow_right (by norm_num) (by omega)
  have hfull := assembled_classBytes_replicate_full (k - 1) 0x7F
  have hpow : ((0x7F : Chunk).toNat + 1) * 2 ^ (7 * (k - 1)) = 2 ^ (7 * k) := by
    rw [show 7 * k = 7 + 7 * (k - 1) by omega, pow_add]
    rfl
  have hv : assembled (classBytes (List.replicate (k - 1) 0x7F) 0x7F) =
      (BitVec.ofNat 64 (2 ^ (7 * k) - 1)).toNat := by
    rw [BitVec.toNat_ofNat, Nat.mod_eq_of_lt (by omega)]
    omega
  rw [← classBytes_eq_encodeValue _ (.inr (by decide)) hv, classBytes_replicate]
  rfl

/-- The tenth chunk of an encoding is bit 63 of the value. -/
theorem tenth_byte_of_encodeValue {v : Val} (h : (encodeValue v).length = 10) :
    (encodeValue v).getD 9 0 = 0x01#8 := by
  obtain ⟨-, -, hlast⟩ := (wellFormedSeq_iff_getD _).mp (wellFormedSeq_encodeValue v)
  rw [h] at hlast
  have hge : 2 ^ 63 ≤ v.toNat := by
    have hle := length_encodeValue_le_iff v 8
    omega
  have hchunk : chunkOf ((encodeValue v).getD 9 0) = 1 := by
    have hv := v.isLt
    have hone : (1 : Chunk).toNat = 1 := rfl
    apply BitVec.eq_of_toNat_eq
    rw [chunkOf_getD_toNat, assembled_encodeValue, hone]
    omega
  rw [← lastByte_chunkOf (b := (encodeValue v).getD 9 0) (by rw [isCont_eq_not_isLast, hlast]; rfl),
    hchunk]
  rfl

/-- Settles O15: the powers of 2^7 and their predecessors in general, the single values by
evaluation. -/
theorem encodeCornerCases : Obligations.EncodeCornerCases :=
  ⟨by decide, fun v => encodeLoop_ne_nil 9 v, by decide, by decide,
    fun _ hpos hk => ⟨encodeValue_two_pow hk, encodeValue_two_pow_sub_one hpos hk⟩, by decide,
    fun _ => tenth_byte_of_encodeValue, by decide⟩

/-! ### The sequences DECODE accepts (R63) -/

/-- The two checks of R112 on the continuation bits let only well-formed sequences pass. -/
theorem wellFormedSeq_of_continuation_checks {bs : List Byte} (hne : bs ≠ [])
    (hinner : bs.dropLast.any isLast = false) (hlast : bs.getLast?.any isCont = false) :
    wellFormedSeq bs = true := by
  rw [getLast?_any isCont bs hne] at hlast
  refine (wellFormedSeq_iff_getD bs).mpr ⟨hne, ?_, ?_⟩
  · rw [← dropLast_all_isCont]
    simpa [isCont_eq_not_isLast] using hinner
  · rw [isLast_eq_not_isCont, hlast]
    rfl

theorem validSeq_of_decodeSequence {bs : List Byte} {v : Val} (h : decodeSequence bs = .ok v) :
    validSeq bs = true := by
  obtain ⟨hne, hlen, -, hinner, hlast⟩ := decodeSequence_ok h
  have hv := v.isLt
  rw [validSeq_iff, assembled_of_decodeSequence h]
  exact ⟨wellFormedSeq_of_continuation_checks hne hinner hlast, hlen, by omega⟩

/-- Settles O18: what passes the checks of R112 is valid, and what is valid passes them. -/
theorem decodeAcceptsExactlyTheValidSequences :
    Obligations.DecodeAcceptsExactlyTheValidSequences := fun _ _ =>
  ⟨fun h => ⟨validSeq_of_decodeSequence h, assembled_of_decodeSequence h⟩,
    fun ⟨hvalid, hv⟩ => decodeSequence_of_validSeq hvalid hv⟩

/-! ### The value overflow (R114) -/

/-- The tenth chunk stands above bit 63, so it fits exactly when it is 0 or 1. -/
theorem assembled_gt_iff_tenth_chunk {bs : List Byte} (h : bs.length = 10) :
    2 ^ 64 - 1 < assembled bs ↔ 2 ≤ (chunkOf (bs.getD 9 0)).toNat := by
  have hlt := assembled_lt bs
  rw [h] at hlt
  rw [chunkOf_getD_toNat]
  omega

theorem assembled_le_of_length_le_nine {bs : List Byte} (h : bs.length ≤ 9) :
    assembled bs ≤ 2 ^ 63 - 1 := by
  have hlt := assembled_lt bs
  have hpow : 2 ^ (7 * bs.length) ≤ 2 ^ 63 := Nat.pow_le_pow_right (by norm_num) (by omega)
  omega

/-- Row 3 of R111 says that the assembled value exceeds 64 bits. -/
theorem tenthChunkOverflows_iff_assembled_gt {bs : List Byte} (h : bs.length ≤ 10) :
    TenthChunkOverflows bs ↔ 2 ^ 64 - 1 < assembled bs := by
  rw [tenthChunkOverflows_iff]
  by_cases hten : bs.length = 10
  · rw [assembled_gt_iff_tenth_chunk hten, and_iff_right hten]
  · have hle := assembled_le_of_length_le_nine (bs := bs) (by omega)
    omega

/-- Settles O20: the bound of `assembled_lt`, the place of the tenth chunk, and the rows of R111 that
raise `Overflow`. -/
theorem onlyATenthChunkOfTwoOrMoreOverflows : Obligations.OnlyATenthChunkOfTwoOrMoreOverflows := by
  intro bs hlen
  refine ⟨assembled_lt bs, assembled_le_of_length_le_nine, fun hten => ?_, ?_⟩
  · rw [assembled_gt_iff_tenth_chunk hten, chunkOf_toNat]
  · rw [decodeSequence_eq_overflow_iff, or_iff_right (Nat.not_lt.mpr hlen),
      tenthChunkOverflows_iff_assembled_gt hlen]

/-! ### Over-long input (R116, Q6) -/

/-- An accepted sequence is what ENCODE gives for its value exactly when it is canonical. -/
theorem encodeValue_eq_iff_canonicalSeq {bs : List Byte} {v : Val} (hv : assembled bs = v.toNat) :
    encodeValue v = bs ↔ canonicalSeq bs = true := by
  constructor
  · rintro rfl
    exact canonicalSeq_encodeValue v
  · exact fun h => (eq_encodeValue_of_canonicalSeq h hv).symm

/-- A superfluous last chunk makes a sequence not canonical (R64). -/
theorem not_canonicalSeq_of_last_chunk_zero {bs : List Byte} (hlen : 1 < bs.length)
    (h : chunkOf (bs.getD (bs.length - 1) 0) = 0) : ¬ canonicalSeq bs = true := by
  have hne : bs ≠ [] := List.length_pos_iff.mp (by omega)
  rw [canonicalSeq_iff_getD hne]
  rintro ⟨-, hone | hchunk⟩
  · omega
  · exact hchunk h

/-- Settles O23: valid input is accepted, and ENCODE gives only canonical sequences; 0x00 and
0x80 0x00 both give 0. -/
theorem overLongSequencesAreAccepted : Obligations.OverLongSequencesAreAccepted := by
  refine ⟨fun bs hvalid hlen hzero => ?_, ?_, fun bs v h => ?_⟩
  · obtain ⟨-, -, hle⟩ := (validSeq_iff bs).mp hvalid
    have hv : assembled bs = (BitVec.ofNat 64 (assembled bs)).toNat := by
      rw [BitVec.toNat_ofNat, Nat.mod_eq_of_lt (by omega)]
    refine ⟨_, decodeSequence_of_validSeq hvalid hv, hv.symm, ?_⟩
    rw [Ne, encodeValue_eq_iff_canonicalSeq hv]
    exact not_canonicalSeq_of_last_chunk_zero hlen hzero
  · exact ⟨[0x00#8], [0x80#8, 0x00#8], 0, by decide, by decide, by decide⟩
  · exact encodeValue_eq_iff_canonicalSeq (assembled_of_decodeSequence h)

end Sys2Proof.Machine
end

section
/-! PROOFS of the family 'other', the ports: what ENC and DEC answer on their signals (R30, R31, R68,
R100, R118), and the round trip through them (R101). -/

namespace Sys2Proof.Machine

/-! ### The outputs as functions of the inputs (R30, R31) -/

theorem encPort_of_invalid {p : EncIn} (h : p.inValid = false) : encPort p = EncOut.idle := by
  simp [encPort, h]

@[simp] theorem encPort_lowered (p : EncIn) : encPort p.lowered = EncOut.idle :=
  encPort_of_invalid rfl

theorem decPort_of_invalid {p : DecIn} (h : p.inValid = false) : decPort p = DecOut.idle := by
  simp [decPort, h]

theorem decAnswer_outValid (len : Len) (data : Bus) : (decAnswer len data).outValid = true := by
  rw [decAnswer]
  cases decodeOfLength len.toNat (carriedBytes len data) <;> rfl

theorem encPort_outValid (p : EncIn) : (encPort p).outValid = p.inValid := by
  unfold encPort
  split
  case isTrue h => rw [h]; rfl
  case isFalse h => rw [Bool.not_eq_true] at h; rw [h]; rfl

theorem decPort_outValid (p : DecIn) : (decPort p).outValid = p.inValid := by
  unfold decPort
  split
  case isTrue h => rw [h, decAnswer_outValid]
  case isFalse h => rw [Bool.not_eq_true] at h; rw [h]; rfl

/-- The operand of a port that is not driven is ignored (R30). -/
theorem encPort_congr {e f : EncIn} (hvalid : e.inValid = f.inValid)
    (h : e.inValid = true → e = f) : encPort e = encPort f := by
  cases he : e.inValid with
  | true => rw [h he]
  | false => rw [encPort_of_invalid he, encPort_of_invalid (hvalid ▸ he)]

theorem decPort_congr {d g : DecIn} (hvalid : d.inValid = g.inValid)
    (h : d.inValid = true → d = g) : decPort d = decPort g := by
  cases hd : d.inValid with
  | true => rw [h hd]
  | false => rw [decPort_of_invalid hd, decPort_of_invalid (hvalid ▸ hd)]

/-! ### The outputs stay the function of the inputs -/

/-- What ENCODE leaves, from an execution that was made. -/
theorem eq_answerEnc_of_exec {v : Val} {s t : State} (h : exec (.encode v) s = .next t) :
    t = answerEnc v (encAnswer v) s :=
  Host.Outcome.next.inj (h.symm.trans (exec_encode v s))

/-- What DECODE leaves, from an execution that was made. -/
theorem eq_answerDec_of_exec {len : Len} {data : Bus} {s t : State}
    (h : exec (.decode len data) s = .next t) : t = answerDec len data (decAnswer len data) s :=
  Host.Outcome.next.inj (h.symm.trans (exec_decode len data s))

/-- All that a step does, from a step that was made. -/
theorem step_next_spec {s t : State} (h : step s = .next t) :
    t.encIn = (nextPins s).1 ∧ t.decIn = (nextPins s).2 ∧
      t.encOut = encPort (nextPins s).1 ∧ t.decOut = decPort (nextPins s).2 ∧
      t.script = s.script.tail ∧
      t.encTaken = s.encTaken ++ (encRequests (s.script.take 1)).map encAnswer ∧
      t.decTaken = s.decTaken ++ (decRequests (s.script.take 1)).map fun r => decAnswer r.1 r.2 := by
  obtain ⟨u, hu, hspec⟩ := step_spec s
  obtain rfl : t = u := Host.Outcome.next.inj (h.symm.trans hu)
  exact hspec

theorem coherent_of_step {s t : State} (h : step s = .next t) : Coherent t := by
  obtain ⟨hencIn, hdecIn, hencOut, hdecOut, -⟩ := step_next_spec h
  rw [Coherent, hencIn, hdecIn]
  exact ⟨hencOut, hdecOut⟩

theorem coherent_answerEnc {s : State} (h : Coherent s) (v : Val) :
    Coherent (answerEnc v (encAnswer v) s) :=
  ⟨rfl, h.right⟩

theorem coherent_answerDec {s : State} (h : Coherent s) (len : Len) (data : Bus) :
    Coherent (answerDec len data (decAnswer len data) s) :=
  ⟨h.left, rfl⟩

/-- Settles O37: a step drives both ports anew and gives what they answer; an instruction does so on
one port and leaves the other, signals and response, alone. -/
theorem outputsStayTheFunctionOfTheInputs : Obligations.OutputsStayTheFunctionOfTheInputs := by
  refine ⟨fun _ _ => coherent_of_step, fun i s t hs h => ?_⟩
  obtain ⟨v, rfl⟩ | ⟨len, data, rfl⟩ := exec_next_cases h
  · exact coherent_answerEnc hs v
  · exact coherent_answerDec hs len data

/-! ### What DEC answers for a sequence on its port (R68, R118) -/

/-- Above ten bytes the length alone decides (R113). -/
theorem decodeOfLength_of_gt_ten {n : Nat} (h : 10 < n) (bs : List Byte) :
    decodeOfLength n bs = .error .overflow := by
  have hne : n ≠ 0 := by omega
  rw [decodeOfLength, if_neg hne, if_pos h]

/-- The port answers as the sequence is answered, for every sequence that the request may stand for. -/
theorem decAnswer_eq_deliver {len : Len} {data : Bus} {bs : List Byte} (hlen : bs.length = len.toNat)
    (h : ∀ i < min len.toNat 10, bs.getD i 0 = lane data i) :
    decAnswer len data = deliver (decodeSequence bs) := by
  rw [decAnswer, carriedBytes_eq_take len data bs hlen fun i hi => (h i hi).symm, decodeSequence, hlen]
  by_cases hten : 10 < len.toNat
  · rw [decodeOfLength_of_gt_ten hten, decodeOfLength_of_gt_ten hten]
  · rw [List.take_of_length_le (by omega)]

/-- A sequence of at most ten bytes, packed into the lanes, is answered as the sequence. -/
theorem decAnswer_packLanes {bs : List Byte} (h : bs.length ≤ 10) :
    decAnswer (lenField bs) (packLanes bs) = deliver (decodeSequence bs) := by
  have hlen := toNat_lenField bs h
  exact decAnswer_eq_deliver hlen.symm fun i hi => (lane_packLanes bs i (by omega)).symm

/-- Settles O34: the encoding fits the lanes and the length field, and DECODE of ENCODE is the
identity on sequences. -/
theorem portRoundTrip : Obligations.PortRoundTrip := by
  intro v s t h
  obtain rfl := eq_answerEnc_of_exec h
  refine ⟨_, exec_decode _ _ _, ?_⟩
  calc decAnswer (encAnswer v).len (encAnswer v).data
      = deliver (decodeSequence (encodeValue v)) := decAnswer_packLanes (length_encodeValue_le v)
    _ = returnValue v := by rw [decodeOfEncodeIsTheValue v, deliver]

/-- Settles O28: the port answers as the sequence, and the sequence as its first matching row. -/
theorem portDecodeRefinesSequenceDecode : Obligations.PortDecodeRefinesSequenceDecode := by
  constructor
  · intro len data bs s hlen h
    refine ⟨_, exec_decode len data s, rfl, decAnswer_outValid len data, ?_, rfl⟩
    rw [answerDec_decOut, decAnswer_eq_deliver hlen h, ← decodeGivesTheFirstMatchingRow bs]
    cases decodeSequence bs with
    | ok v => exact ⟨rfl, rfl⟩
    | error k => cases k <;> exact ⟨rfl, rfl⟩
  · intro s t h hvalid
    obtain ⟨-, hdec⟩ := coherent_of_step h
    rw [hdec, decPort_of_invalid hvalid]
    rfl

/-- Settles O27: length and lanes of the packed encoding, and the idle outputs of a port that is not
driven. -/
theorem encodeAnswersOnItsPort : Obligations.EncodeAnswersOnItsPort := by
  constructor
  · intro v s
    have hle := length_encodeValue_le v
    refine ⟨_, exec_encode v s, rfl, rfl, toNat_lenField _ hle, fun i hi => ?_, fun i hi h9 => ?_, rfl⟩
    · exact lane_packLanes _ i (by omega)
    · calc lane (packLanes (encodeValue v)) i = (encodeValue v).getD i 0 :=
            lane_packLanes _ i (by omega)
        _ = 0x00#8 := List.getD_eq_default _ _ hi
  · intro s t h hvalid
    obtain ⟨henc, -⟩ := coherent_of_step h
    rw [henc, encPort_of_invalid hvalid]
    rfl

/-- The lanes that the length leaves out are ignored (R68). -/
theorem decAnswer_congr {len : Len} {d e : Bus}
    (h : len.toNat ≤ 10 → ∀ i < len.toNat, lane d i = lane e i) : decAnswer len d = decAnswer len e := by
  by_cases hten : len.toNat ≤ 10
  · rw [decAnswer, decAnswer, carriedBytes_congr len d e fun i hi => h hten i (by omega)]
  · rw [decAnswer_of_len_gt_ten len d (by omega), decAnswer_of_len_gt_ten len e (by omega)]

/-- Settles O29: the response is a function of the length and the lanes below it. -/
theorem ignoredLanesCannotChangeTheResponse : Obligations.IgnoredLanesCannotChangeTheResponse := by
  intro len d e s t u h ht hu
  obtain rfl := eq_answerDec_of_exec ht
  obtain rfl := eq_answerDec_of_exec hu
  simp [decAnswer_congr h]

/-! ### A varint byte alone (log entry 2) -/

theorem decAnswer_one_byte (b : Byte) :
    decAnswer 1 (packLanes [b]) = deliver (decodeSequence [b]) :=
  decAnswer_packLanes (bs := [b]) (by simp)

/-- A continuation byte in the last place is row 5 of R111. -/
theorem decodeSequence_contByte (c : Chunk) : decodeSequence [contByte c] = .error .invalidInput := by
  refine decodeSequence_of_isTruncated (List.cons_ne_nil _ _) (by simp) (by simp) ?_
  rw [← truncation_check_iff (List.cons_ne_nil _ _)]
  exact isCont_contByte c

/-- A terminal byte alone is a valid sequence that assembles its chunk. -/
theorem decodeSequence_lastByte (c : Chunk) : decodeSequence [lastByte c] = .ok (c.setWidth 64) := by
  have hc := c.isLt
  have hA : assembled [lastByte c] = c.toNat := assembled_classBytes_nil c
  apply decodeSequence_of_validSeq
  · rw [validSeq_iff, wellFormedSeq_iff_classBytes, hA]
    exact ⟨⟨[], c, rfl⟩, by simp, by omega⟩
  · rw [hA, BitVec.toNat_setWidth, Nat.mod_eq_of_lt (by omega)]

/-- The bus of one byte of class VB.CONT, bit by bit (R60). -/
theorem packLanes_contByte (c : Chunk) : packLanes [contByte c] = (1#1 ++ c).setWidth 80 := by
  revert c; decide

/-- The bus of one byte of class VB.LAST, bit by bit (R60). -/
theorem packLanes_lastByte (c : Chunk) : packLanes [lastByte c] = (0#1 ++ c).setWidth 80 := by
  revert c; decide

/-- Settles O31: a continuation byte alone is the DEC transaction of a truncated sequence. -/
theorem vbContAloneIsTruncated : Obligations.VbContAloneIsTruncated := by
  intro c s
  refine ⟨_, exec_vbCont c s, ?_, ?_, rfl⟩
  · rw [answerDec_decIn, packLanes_contByte]
  · rw [answerDec_decOut, decAnswer_one_byte, decodeSequence_contByte]
    rfl

/-- Settles O32: a terminal byte alone is the DEC transaction of a valid sequence. -/
theorem vbLastAloneIsItsChunk : Obligations.VbLastAloneIsItsChunk := by
  intro c s
  refine ⟨_, exec_vbLast c s, ?_, ?_, rfl⟩
  · rw [answerDec_decIn, packLanes_lastByte]
  · rw [answerDec_decOut, decAnswer_one_byte, decodeSequence_lastByte]
    rfl

end Sys2Proof.Machine
end

section
/-! PROOFS of the family 'other', instructions, steps and runs: frames (R20), the fetch (log entries 2, 4,
5), idle units (R30), runs (R51, R155), and what a response depends on (R13). -/

namespace Sys2Proof.Machine

/-! ### The instructions of DEC -/

/-- Every instruction but ENCODE is one DEC transaction, of a request that the state has no part in. -/
theorem exec_of_not_encode {i : Instr} (h : ∀ v, i ≠ .encode v) :
    ∃ len data, ∀ s, exec i s = .next (answerDec len data (decAnswer len data) s) := by
  cases i with
  | encode v => exact absurd rfl (h v)
  | decode len data => exact ⟨len, data, exec_decode len data⟩
  | vbCont c => exact ⟨1, packLanes [contByte c], exec_vbCont c⟩
  | vbLast c => exact ⟨1, packLanes [lastByte c], exec_vbLast c⟩

/-- Settles O33: the fields that one ENC transaction, and one DEC transaction, leave alone. -/
theorem eachUnitLeavesTheOtherUnchanged : Obligations.EachUnitLeavesTheOtherUnchanged := by
  constructor
  · intro v s t h
    obtain rfl := eq_answerEnc_of_exec h
    simp
  · intro i s t hi h
    obtain ⟨len, data, hexec⟩ := exec_of_not_encode hi
    obtain rfl := Host.Outcome.next.inj ((hexec s).symm.trans h)
    simp

/-- Transactions of the two units write different fields. -/
theorem answerDec_answerEnc_comm (v : Val) (o : EncOut) (len : Len) (data : Bus) (p : DecOut)
    (s : State) :
    answerDec len data p (answerEnc v o s) = answerEnc v o (answerDec len data p s) := rfl

/-- Settles O42: the transactions commute on the state, and a step that presents both requests runs
both. -/
theorem encAndDecTransactionsCommute : Obligations.EncAndDecTransactionsCommute := by
  intro v i s hi
  obtain ⟨len, data, hexec⟩ := exec_of_not_encode hi
  refine ⟨_, _, _, exec_encode v s, hexec s, hexec _, ?_, rfl, rfl, ?_⟩
  · rw [exec_encode, answerDec_answerEnc_comm]
  · rintro len' data' q rfl hq
    have hout := congrArg State.decOut (eq_answerDec_of_exec (hexec q))
    exact ⟨_, step_ports q _ _ [] hq, rfl, hout.symm⟩

/-! ### The step runs the decoded instruction -/

/-- The presentation of a request word alone is run as the instruction that the word is. -/
theorem step_of_ofRequest {s r : State} {w : RequestWord} {rest : List Presentation}
    (h : s.script = Presentation.ofRequest r w :: rest) :
    step s = exec (decodeWord w) (afterFetch s) := by
  cases w with
  | encReq bits => exact step_ports s _ _ rest h
  | decReq bits => exact step_ports s _ _ rest h
  | varintByte bits =>
    rw [step_varintByte s bits rest h, decodeWord, exec_decodeByte]

/-- The bytes of a request word put its presentation at the head of the script. -/
theorem presentNext_of_request {bytes : List Byte} {w : RequestWord}
    (h : requestOfBytes bytes = .ok w) (s : State) :
    presentNext bytes s = { s with script := Presentation.ofRequest s w :: s.script } := by
  rw [presentNext, h]

/-- Settles O35: a request word presented next is run as its instruction, and `step_ports` says what
a presentation of both ports runs. -/
theorem stepRunsTheDecodedInstruction : Obligations.StepRunsTheDecodedInstruction := by
  refine ⟨fun s bytes i h _ => ?_, fun s e d rest h => ?_, fun _ => ⟨rfl, rfl, rfl, rfl, rfl⟩⟩
  · obtain ⟨w, hreq, rfl⟩ := exists_request_of_decodeBytes h
    apply step_of_ofRequest
    rw [presentNext_of_request hreq]
  · have hstep := step_ports s e d rest h
    refine ⟨fun he hd => ?_, fun he hd => ?_, fun he hd => ⟨_, exec_encode _ _, ?_⟩, ?_, ?_⟩
    · simp [hstep, he, hd, exec_encode]
    · simp [hstep, he, hd, exec_decode]
    · simp [hstep, he, hd, exec_decode]
    · simp [nextPins, h]
    · simp [nextPins, h]

/-! ### Idle units and ignored operands (R30) -/

theorem encRequests_ports (e : EncIn) (d : DecIn) :
    encRequests [.ports e d] = if e.inValid then [e.value] else [] := by
  simp [encRequests]

theorem decRequests_ports (e : EncIn) (d : DecIn) :
    decRequests [.ports e d] = if d.inValid then [(d.len, d.data)] else [] := by
  simp [decRequests]

/-- Two ENC request signals that differ at most in an ignored operand make the same requests. -/
theorem encRequests_ports_congr {e f : EncIn} (d g : DecIn) (hvalid : e.inValid = f.inValid)
    (h : e.inValid = true → e = f) : encRequests [.ports e d] = encRequests [.ports f g] := by
  rw [encRequests_ports, encRequests_ports]
  cases he : e.inValid with
  | true => rw [← h he, he]
  | false => rw [← hvalid, he]; rfl

/-- Two DEC request signals that differ at most in ignored operands make the same requests. -/
theorem decRequests_ports_congr {d g : DecIn} (e f : EncIn) (hvalid : d.inValid = g.inValid)
    (h : d.inValid = true → d = g) : decRequests [.ports e d] = decRequests [.ports f g] := by
  rw [decRequests_ports, decRequests_ports]
  cases hd : d.inValid with
  | true => rw [← h hd, hd]
  | false => rw [← hvalid, hd]; rfl

/-- What a step on a presentation of both ports gives. -/
theorem step_next_ports {s t : State} {e : EncIn} {d : DecIn} {rest : List Presentation}
    (hscript : s.script = .ports e d :: rest) (h : step s = .next t) :
    t.encOut = encPort e ∧ t.decOut = decPort d ∧
      t.encTaken = s.encTaken ++ (encRequests [.ports e d]).map encAnswer ∧
      t.decTaken = s.decTaken ++ (decRequests [.ports e d]).map fun r => decAnswer r.1 r.2 := by
  have hpins : nextPins s = (e, d) := by simp [nextPins, hscript]
  have htake : s.script.take 1 = [.ports e d] := by simp [hscript]
  obtain ⟨-, -, henc, hdec, -, hencTaken, hdecTaken⟩ := step_next_spec h
  rw [hpins] at henc hdec
  rw [htake] at hencTaken hdecTaken
  exact ⟨henc, hdec, hencTaken, hdecTaken⟩

/-- Settles O36: a step's outputs are those of the ports, which follow the valid signals, and a port
that is not driven reads no operand. -/
theorem validFollowsValidAndIdleOutputsAreZero :
    Obligations.ValidFollowsValidAndIdleOutputsAreZero := by
  constructor
  · intro s
    obtain ⟨t, ht, -⟩ := step_spec s
    obtain ⟨henc, hdec⟩ := coherent_of_step ht
    refine ⟨t, ht, ?_, ?_, fun hvalid => ?_, fun hvalid => ?_⟩
    · rw [henc, encPort_outValid]
    · rw [hdec, decPort_outValid]
    · rw [henc, encPort_of_invalid hvalid]
      rfl
    · rw [hdec, decPort_of_invalid hvalid]
      rfl
  · intro s r t u e f d g rest hs hr hev he hdv hd hencTaken hdecTaken ht hu
    obtain ⟨htenc, htdec, htencTaken, htdecTaken⟩ := step_next_ports hs ht
    obtain ⟨huenc, hudec, huencTaken, hudecTaken⟩ := step_next_ports hr hu
    refine ⟨?_, ?_, ?_, ?_⟩
    · rw [htenc, huenc, encPort_congr hev he]
    · rw [htdec, hudec, decPort_congr hdv hd]
    · rw [htencTaken, huencTaken, hencTaken, encRequests_ports_congr d g hev he]
    · rw [htdecTaken, hudecTaken, hdecTaken, decRequests_ports_congr e f hdv hd]

/-- Settles O39: the reset signals are the idle ones. -/
theorem resetIsIdleAndSafe : Obligations.ResetIsIdleAndSafe :=
  ⟨rfl, rfl, rfl, rfl, ⟨rfl, rfl⟩, (legalOutputs_iff _).mpr ⟨legalEncOut_idle, legalDecOut_idle⟩⟩

/-! ### Runs -/

/-- Settles O40, by induction on the number of steps. -/
theorem noRunEverStops : Obligations.NoRunEverStops := by
  intro k
  induction k with
  | zero => exact fun s => ⟨s, rfl⟩
  | succ k ih =>
    intro s
    obtain ⟨t, ht, -⟩ := step_spec s
    rw [core_run_succ Sys2Proof.core k s t ht]
    exact ih t

theorem encRequests_cons (p : Presentation) (rest : List Presentation) :
    encRequests (p :: rest) = encRequests [p] ++ encRequests rest := by
  cases p <;> simp [encRequests]

theorem decRequests_cons (p : Presentation) (rest : List Presentation) :
    decRequests (p :: rest) = decRequests [p] ++ decRequests rest := by
  cases p <;> simp [decRequests]

/-- The run of a script to its end. -/
theorem run_of_script {s : State} {script : List Presentation} (hscript : s.script = script) :
    ∃ t, Sys2Proof.core.run script.length s = .next t ∧ t.script = [] ∧
      t.encTaken = s.encTaken ++ (encRequests script).map encAnswer ∧
      t.decTaken = s.decTaken ++ (decRequests script).map fun r => decAnswer r.1 r.2 := by
  induction script generalizing s with
  | nil => exact ⟨s, rfl, hscript, by simp [encRequests], by simp [decRequests]⟩
  | cons p rest ih =>
    obtain ⟨t, ht, -, -, -, -, htail, henc, hdec⟩ := step_spec s
    rw [hscript] at htail henc hdec
    obtain ⟨u, hu, hend, huenc, hudec⟩ := ih htail
    refine ⟨u, ?_, hend, ?_, ?_⟩
    · exact (core_run_succ Sys2Proof.core rest.length s t ht).trans hu
    · rw [huenc, henc, encRequests_cons p rest]
      simp
    · rw [hudec, hdec, decRequests_cons p rest]
      simp

/-- Settles O41: the responses taken are the answers to the requests in order, which is a function
of the requests of each unit. -/
theorem runsAnswerEveryRequestInOrder : Obligations.RunsAnswerEveryRequestInOrder := by
  refine ⟨fun s => run_of_script rfl, ?_⟩
  intro s r t u hencReq hdecReq hencTaken hdecTaken ht hu
  obtain ⟨t', ht', -, htenc, htdec⟩ := run_of_script (s := s) rfl
  obtain ⟨u', hu', -, huenc, hudec⟩ := run_of_script (s := r) rfl
  obtain rfl : t = t' := Host.Outcome.next.inj (ht.symm.trans ht')
  obtain rfl : u = u' := Host.Outcome.next.inj (hu.symm.trans hu')
  rw [htenc, huenc, htdec, hudec, hencReq, hdecReq, hencTaken, hdecTaken]
  exact ⟨rfl, rfl⟩

/-! ### What a response depends on (R13) -/

/-- The outputs during a step are a function of the presentation: what the signals held before it
shows only on a port that is not driven. -/
theorem ports_nextPins_congr {s r : State} {p : Presentation} (hs : s.script.head? = some p)
    (hr : r.script.head? = some p) :
    encPort (nextPins s).1 = encPort (nextPins r).1 ∧
      decPort (nextPins s).2 = decPort (nextPins r).2 := by
  obtain ⟨srest, hs⟩ := List.head?_eq_some_iff.mp hs
  obtain ⟨rrest, hr⟩ := List.head?_eq_some_iff.mp hr
  cases p with
  | ports e d => simp [nextPins, hs, hr]
  | varintByte b => simp [nextPins, hs, hr]

/-- Settles O43: an instruction is one transaction of a request that it fixes, and a step's outputs
are those of the ports for the presentation. -/
theorem responsesDependOnTheRequestAlone : Obligations.ResponsesDependOnTheRequestAlone := by
  constructor
  · intro i s r t u ht hu
    constructor
    · rintro ⟨v, rfl⟩
      obtain rfl := eq_answerEnc_of_exec ht
      obtain rfl := eq_answerEnc_of_exec hu
      exact ⟨rfl, rfl⟩
    · intro hi
      obtain ⟨len, data, hexec⟩ := exec_of_not_encode hi
      obtain rfl := Host.Outcome.next.inj ((hexec s).symm.trans ht)
      obtain rfl := Host.Outcome.next.inj ((hexec r).symm.trans hu)
      exact ⟨rfl, rfl⟩
  · intro s r t u p hs hr ht hu
    obtain ⟨-, -, htenc, htdec, -⟩ := step_next_spec ht
    obtain ⟨-, -, huenc, hudec, -⟩ := step_next_spec hu
    rw [htenc, huenc, htdec, hudec]
    exact ports_nextPins_congr hs hr

end Sys2Proof.Machine
end
